-- ==== Sys2Proof/Word.lean ====
section
/-! DEFINITION. The words of the block: bus bytes, 32-bit registers, 64-bit operands (R7, R9, R10). -/

namespace Sys2Proof

/-- One byte lane of the bus (R55). -/
abbrev Byte := BitVec 8

/-- One 32-bit register or bus data word (R7, R20). -/
abbrev Word := BitVec 32

/-- One 64-bit operand, result or intermediate, always unsigned (R7, R8, R10). -/
abbrev Dword := BitVec 64

end Sys2Proof
end

