-- ==== Sys2Proof/Machine/Datapath.lean ====
section
/-! DEFINITION. The datapath: modular multiplication, square-and-multiply, the odd part, one Miller–Rabin round
(R90, R91, R110, R111), and how many multiplications each makes, for timing only (R95, R182). -/

namespace Sys2Proof.Machine

/-- The exact product, at most 128 bits (R37, R90). -/
def product (a b : Dword) : BitVec 128 := BitVec.ofNat 128 (a.toNat * b.toNat)

/-- `ModMulCore(a, b, m) = (a·b) mod m`, for `m ≥ 1` (R90). -/
def modMulCore (a b m : Dword) : Dword := BitVec.ofNat 64 (a.toNat * b.toNat % m.toNat)

/-- The working registers of ModPow (R37). -/
structure PowRegs where
  acc : Dword
  bp : Dword
  e : Dword
  prod : BitVec 128
  deriving DecidableEq, Repr

/-- One iteration of square-and-multiply (R91). -/
def powStep (m : Dword) (p : PowRegs) : PowRegs where
  acc := if p.e.getLsbD 0 then modMulCore p.acc p.bp m else p.acc
  bp := modMulCore p.bp p.bp m
  e := p.e >>> 1
  prod := product p.bp p.bp

/-- `while e != 0`, with fuel for the at most 64 iterations (R91). -/
def powLoop (m : Dword) : Nat → PowRegs → PowRegs
  | 0, p => p
  | k + 1, p => if p.e = 0 then p else powLoop m k (powStep m p)

/-- The registers before the loop: `acc <- 1 mod m`, `bp <- b` (R91). -/
def powStart (b e m : Dword) (prod : BitVec 128) : PowRegs where
  acc := BitVec.ofNat 64 (1 % m.toNat)
  bp := b
  e := e
  prod := prod

/-- The registers after the loop of `ModPowCore(b, e, m)` (R91). -/
def powRun (b e m : Dword) (prod : BitVec 128) : PowRegs := powLoop m 64 (powStart b e m prod)

/-- `ModPowCore(b, e, m)`, for `m ≥ 1` (R91). -/
def modPowCore (b e m : Dword) : Dword := (powRun b e m 0).acc

/-- `while d[0] = 0: d <- d >> 1`, with fuel (R110). -/
def oddLoop : Nat → Dword → Dword
  | 0, d => d
  | k + 1, d => if d.getLsbD 0 then d else oddLoop k (d >>> 1)

/-- `DecomposeOdd(n)`, for odd `n ≥ 3` (R110). -/
def decomposeOdd (n : Dword) : Dword := oddLoop 64 (n - 1)

/-- The outcome of a round (R111). -/
inductive Verdict where
  | pass | composite
  deriving DecidableEq, Repr

/-- The working registers of the witness loop (R38). -/
structure RoundRegs where
  t : Dword
  y : Dword
  prod : BitVec 128
  deriving DecidableEq, Repr

/-- One squaring of the witness loop (R111). -/
def roundStep (n : Dword) (q : RoundRegs) : RoundRegs where
  t := q.t <<< 1
  y := modMulCore q.y q.y n
  prod := product q.y q.y

/-- `t != n − 1 and y != 1 and y != n − 1` (R111). -/
def roundGoesOn (n : Dword) (q : RoundRegs) : Bool :=
  decide (q.t ≠ n - 1) && decide (q.y ≠ 1) && decide (q.y ≠ n - 1)

/-- The witness loop, with fuel for the at most 63 squarings of R112. -/
def roundLoop (n : Dword) : Nat → RoundRegs → RoundRegs
  | 0, q => q
  | k + 1, q => if roundGoesOn n q then roundLoop n k (roundStep n q) else q

/-- The registers after the witness loop, started with the registers of `ModPowCore(a, d, n)` (R111). -/
def roundRun (n d : Dword) (p : PowRegs) : RoundRegs := roundLoop n 64 { t := d, y := p.acc, prod := p.prod }

/-- The last test of a round (R111). -/
def roundVerdict (n : Dword) (q : RoundRegs) : Verdict :=
  if q.y ≠ n - 1 ∧ q.t.getLsbD 0 = false then .composite else .pass

/-- `MRRoundCore(n, d, a)`, for odd `n ≥ 3` and `d = DecomposeOdd(n)` (R111). -/
def mrRoundCore (n d a : Dword) : Verdict := roundVerdict n (roundRun n d (powRun a d n 0))

/-- The squarings of `bp` the loop makes: one an iteration (R95). -/
def powSquarings (m : Dword) : Nat → PowRegs → Nat
  | 0, _ => 0
  | k + 1, p => if p.e = 0 then 0 else 1 + powSquarings m k (powStep m p)

/-- The multiplications into `acc` the loop makes: one for each iteration with `e[0] = 1` (R95). -/
def powMultiplications (m : Dword) : Nat → PowRegs → Nat
  | 0, _ => 0
  | k + 1, p => if p.e = 0 then 0 else (if p.e.getLsbD 0 then 1 else 0) + powMultiplications m k (powStep m p)

/-- The squarings of `ModPowCore(b, e, m)` (R95). -/
def modPowSquarings (b e m : Dword) : Nat := powSquarings m 64 (powStart b e m 0)

/-- The accumulator multiplications of `ModPowCore(b, e, m)` (R95). -/
def modPowMultiplications (b e m : Dword) : Nat := powMultiplications m 64 (powStart b e m 0)

/-- The squarings of the witness loop (R112). -/
def roundSquarings (n : Dword) : Nat → RoundRegs → Nat
  | 0, _ => 0
  | k + 1, q => if roundGoesOn n q then 1 + roundSquarings n k (roundStep n q) else 0

/-- The squarings a round makes after its `ModPowCore` (R112, R182). -/
def mrSquarings (n d a : Dword) : Nat :=
  roundSquarings n 64 { t := d, y := modPowCore a d n, prod := 0 }

end Sys2Proof.Machine
end

