-- ==== Sys2Proof/Syntax.lean ====
section
/-! DEFINITION. The commands of the block, one constructor per row of spec/opcode_table.json (R71). -/

namespace Sys2Proof

/-- The five commands of R71. A command word has no operand field: operands stand in A, B and M (R75). -/
inductive Instr where
  /-- `NOP`, word `0x00000000` (R134). -/
  | nop
  /-- `MODPOW`, word `0x00000001` (R93). -/
  | modpow
  /-- `MODMUL`, word `0x00000002` (R92). -/
  | modmul
  /-- `MRROUND`, word `0x00000003` (R113). -/
  | mrround
  /-- `PRIMETEST`, word `0x00000004` (R114). -/
  | primetest
  deriving DecidableEq, Repr

end Sys2Proof
end

