-- ==== Sys2Proof/Decode.lean ====
section
/-! DEFINITION. The command word: decoder, total on any word and any bytes, and the encoder after it (R70 to R72). -/

namespace Sys2Proof

/-- Why a word or a byte sequence is no command. -/
inductive Reject where
  /-- `v[31:8] ≠ 0` (R72). -/
  | reservedBitsSet
  /-- `v[7:0] ≥ 0x05` (R72). -/
  | reservedOpcode
  /-- Not exactly the four bytes of one 32-bit word: there is no other length (R70). -/
  | notOneWord
  deriving DecidableEq, Repr

/-- What the decoder answers. -/
inductive Decoded where
  | command (i : Instr)
  | reject (why : Reject)
  deriving DecidableEq, Repr

/-- The decoder's command, if there is one. -/
def Decoded.toOption : Decoded → Option Instr
  | .command i => some i
  | .reject _ => none

/-- Field OPC, bits [7:0] (R70). -/
def opcField (v : Word) : BitVec 8 := v.extractLsb' 0 8

/-- Field RSVD, bits [31:8] (R70). -/
def rsvdField (v : Word) : BitVec 24 := v.extractLsb' 8 24

/-- The opcode map, from OPC to the command (R71); `0x05` to `0xFF` are reserved (R72). -/
def decodeOpcode (opc : BitVec 8) : Option Instr :=
  if opc = 0x00 then some .nop
  else if opc = 0x01 then some .modpow
  else if opc = 0x02 then some .modmul
  else if opc = 0x03 then some .mrround
  else if opc = 0x04 then some .primetest
  else none

/-- The decoder of a command word (R71, R72). -/
def decodeWord (v : Word) : Decoded :=
  if rsvdField v ≠ 0 then .reject .reservedBitsSet
  else
    match decodeOpcode (opcField v) with
    | some i => .command i
    | none => .reject .reservedOpcode

/-- The word on the four byte lanes, lowest address first: lane `k` is bits `[8k+7:8k]` (R55). -/
def wordOfBytes : List Byte → Option Word
  | [b0, b1, b2, b3] => some (b3 ++ b2 ++ b1 ++ b0)
  | _ => none

/-- The four byte lanes of a word, lowest address first (R55). -/
def bytesOfWord (v : Word) : List Byte :=
  [v.extractLsb' 0 8, v.extractLsb' 8 8, v.extractLsb' 16 8, v.extractLsb' 24 8]

/-- The decoder on bytes: exactly one 32-bit word, little-endian (R55, R70). -/
def decode (bs : List Byte) : Decoded :=
  match wordOfBytes bs with
  | some v => decodeWord v
  | none => .reject .notOneWord

/-- The OPC value of a command (R71). -/
def opcode : Instr → BitVec 8
  | .nop => 0x00
  | .modpow => 0x01
  | .modmul => 0x02
  | .mrround => 0x03
  | .primetest => 0x04

/-- The full word of a command: OPC in bits [7:0], RSVD zero (R70, R71). -/
def encodeWord (i : Instr) : Word := (0 : BitVec 24) ++ opcode i

/-- The command's bytes as the bus carries them. -/
def encode (i : Instr) : List Byte := bytesOfWord (encodeWord i)

/-- What the decoder reads from a row of spec/opcode_table.json: bit 0 of `w` is bit 0 of the word, and the bits above
`nbits` are zero. -/
def decodeTableWord (nbits w : Nat) : Option Instr :=
  if w % 2 ^ nbits < 2 ^ 32 then
    (decode (bytesOfWord (BitVec.ofNat 32 (w % 2 ^ nbits)))).toOption
  else none

end Sys2Proof
end

