-- ==== Sys2Proof/Machine/Bus.lean ====
section
/-! DEFINITION. The bus slave port and the turns of the agents: the register map, host accesses, and what kind of access
each one is to the window (R6, R20, R50 to R56). -/

namespace Sys2Proof.Machine

/-- The named registers of the window (R20). -/
inductive Reg where
  | id | ctrl | status | cmd
  | aLo | aHi | bLo | bHi | mLo | mHi
  | rLo | rHi | rounds | witLo | witHi
  deriving DecidableEq, Repr

/-- The register's offset in the window (R20). -/
def Reg.offset : Reg → Nat
  | .id => 0x00
  | .ctrl => 0x04
  | .status => 0x08
  | .cmd => 0x0C
  | .aLo => 0x10
  | .aHi => 0x14
  | .bLo => 0x18
  | .bHi => 0x1C
  | .mLo => 0x20
  | .mHi => 0x24
  | .rLo => 0x28
  | .rHi => 0x2C
  | .rounds => 0x30
  | .witLo => 0x34
  | .witHi => 0x38

/-- The register at an offset; none at a reserved offset (R20, R54). -/
def regAt (off : Nat) : Option Reg :=
  match off with
  | 0x00 => some .id
  | 0x04 => some .ctrl
  | 0x08 => some .status
  | 0x0C => some .cmd
  | 0x10 => some .aLo
  | 0x14 => some .aHi
  | 0x18 => some .bLo
  | 0x1C => some .bHi
  | 0x20 => some .mLo
  | 0x24 => some .mHi
  | 0x28 => some .rLo
  | 0x2C => some .rHi
  | 0x30 => some .rounds
  | 0x34 => some .witLo
  | 0x38 => some .witHi
  | _ => none

/-- The window is 256 bytes (R7, R50). -/
def windowBytes : Nat := 0x100

/-- How wide a host access is (R52, R53). -/
inductive Size where
  | byte | half | word | dword
  deriving DecidableEq, Repr

def Size.bytes : Size → Nat
  | .byte => 1
  | .half => 2
  | .word => 4
  | .dword => 8

/-- The data of a host write; its width is the access's size. -/
inductive WriteData where
  | byte (v : Byte)
  | half (v : BitVec 16)
  | word (v : Word)
  | dword (v : Dword)
  deriving DecidableEq, Repr

def WriteData.size : WriteData → Size
  | .byte _ => .byte
  | .half _ => .half
  | .word _ => .word
  | .dword _ => .dword

/-- One access of the host at an address of its physical address space: `MemRead` or `MemWrite` (R12, R52). -/
inductive Access where
  | read (addr : Nat) (size : Size)
  | write (addr : Nat) (data : WriteData)
  deriving DecidableEq, Repr

/-- What the host does next: an access, or a `poll`, which reads STATUS until BUSY is 0 (R79). -/
inductive HostOp where
  | access (a : Access)
  | poll
  deriving DecidableEq, Repr

/-- One turn: which agent moves (R6, R147). -/
inductive Turn where
  /-- The host performs the next operation of its program. -/
  | host
  /-- The engine takes its step (R133). -/
  | engine
  /-- The random source answers `v` (R116); `v` is any 64-bit value. -/
  | random (v : Dword)
  /-- The platform asserts the `rst` input (R42, R170). -/
  | rst
  /-- A bus master other than the host accesses the window (R156). -/
  | otherMaster
  deriving DecidableEq, Repr

/-- The sequencer (R35). -/
inductive Seq where
  | idle | exec | rngwait
  deriving DecidableEq, Repr

/-- What a host access is to the block. -/
inductive BusOp where
  /-- No byte of it lies in the window: the block does not decode it (R51). -/
  | outside
  /-- It touches the window and is not a well-formed access (R53). -/
  | malformed
  /-- A well-formed read at this offset (R52). -/
  | read (off : Nat)
  /-- A well-formed write at this offset (R52). -/
  | write (off : Nat) (v : Word)
  deriving DecidableEq, Repr

/-- Some byte of `[addr, addr + n)` lies in the window (R50). -/
def touchesWindow (base addr n : Nat) : Bool :=
  decide (addr < base + windowBytes) && decide (base < addr + n)

/-- `addr` is `base + off` with `off` in `[0x00, 0xFC]` and `off[1:0] = 0` (R52). -/
def onRegister (base addr : Nat) : Bool :=
  decide (base ≤ addr) && decide (addr < base + windowBytes) && decide ((addr - base) % 4 = 0)

/-- The bus interface's reading of an access (R51 to R53). -/
def decodeAccess (base : Nat) : Access → BusOp
  | .read addr size =>
    if touchesWindow base addr size.bytes then
      if size = .word ∧ onRegister base addr then .read (addr - base) else .malformed
    else .outside
  | .write addr data =>
    if touchesWindow base addr data.size.bytes then
      match data with
      | .word v => if onRegister base addr then .write (addr - base) v else .malformed
      | _ => .malformed
    else .outside

/-- Byte lane `k` of a register, `k` in 0..3 (R55). -/
def laneByte (v : Word) (k : Nat) : Byte := v.extractLsb' (8 * k) 8

end Sys2Proof.Machine
end

