-- ==== Sys2Proof/Machine/State.lean ====
section
/-! DEFINITION. The state of the machine as plain data, the reasons a step can stop, and the state after reset. -/

namespace Sys2Proof.Machine

/-- Why a step faults. -/
inductive Fault where
  /-- Raised by the host's turn: an access that touches the window and is not well-formed gets an error response, with
  the data `0x00000000` on a read (R53: a model treats it as a fault of the host's access). The field is that data.
  Safe: no state of the block changes. -/
  | malformedAccess (data : Word)
  /-- Raised by the engine's turn in EXEC when `op` holds no opcode of R71. No run reaches it: issue writes `op` only
  with a legal opcode (R130). Safe. -/
  | noSuchOpcode
  deriving DecidableEq, Repr

/-- Why a step is refused. -/
inductive Refusal where
  /-- Raised by `exec` for a command with no meaning yet; no arm of `exec` is so refused. Safe. -/
  | notModelled (mnemonic : String)
  /-- Raised by a turn of a second bus master: R156, "a model refuses it rather than giving it a meaning". Safe. -/
  | secondBusMaster
  deriving DecidableEq, Repr

/-- Everything the spec gives the block: the registers of the window and the hidden state (R20 to R39). ID is a constant
and CMD stores nothing (R22, R30); BUSY, RNGWAIT and `irq` are views of these fields (R24, R28, R41). -/
structure Block where
  /-- CTRL.IE (R23). -/
  ie : Bool
  /-- STATUS.DONE (R25). -/
  done : Bool
  /-- STATUS.ERR (R26). -/
  err : Bool
  /-- STATUS.OVR (R27). -/
  ovr : Bool
  /-- STATUS.ERRCODE (R29). -/
  errcode : BitVec 4
  /-- Operand A (R31). -/
  aLo : Word
  aHi : Word
  /-- Operand B (R32). -/
  bLo : Word
  bHi : Word
  /-- Operand M (R33). -/
  mLo : Word
  mHi : Word
  /-- Result R (R34). -/
  rLo : Word
  rHi : Word
  /-- ROUNDS.COUNT (R34). -/
  rounds : BitVec 5
  /-- Last witness WIT (R34). -/
  witLo : Word
  witHi : Word
  /-- The sequencer and the current opcode (R35). -/
  seq : Seq
  op : BitVec 8
  /-- The snapshot SA, SB, SM (R36). -/
  sa : Dword
  sb : Dword
  sm : Dword
  /-- ModPow working registers and the 128-bit product (R37). -/
  acc : Dword
  bp : Dword
  e : Dword
  prod : BitVec 128
  /-- Miller–Rabin working registers (R38). -/
  n : Dword
  d : Dword
  t : Dword
  y : Dword
  a : Dword
  r : BitVec 5
  /-- The pending witness request (R39). -/
  rngPending : Bool
  rngLo : Dword
  rngHi : Dword
  deriving DecidableEq, Repr

/-- The machine: the block, and the plain data that says what the other agents do next (R6, R147). -/
structure State where
  /-- The block's own state. -/
  blk : Block
  /-- `PKE_BASE / 0x100`: the OPEN base, a multiple of `0x100` (R51). No step writes it. -/
  page : Nat
  /-- What the host has still to do, in its program order (R60). -/
  program : List HostOp
  /-- The host's record of its reads, offset and value, oldest first (R78). -/
  reads : List (Nat × Word)
  /-- Who moves next, in order (R147). -/
  turns : List Turn
  deriving DecidableEq, Repr

/-- The block after reset (R45, R171). -/
def Block.reset : Block where
  ie := false
  done := false
  err := false
  ovr := false
  errcode := 0
  aLo := 0
  aHi := 0
  bLo := 0
  bHi := 0
  mLo := 0
  mHi := 0
  rLo := 0
  rHi := 0
  rounds := 0
  witLo := 0
  witHi := 0
  seq := .idle
  op := 0x00
  sa := 0
  sb := 0
  sm := 0
  acc := 0
  bp := 0
  e := 0
  prod := 0
  n := 0
  d := 0
  t := 0
  y := 0
  a := 0
  r := 0
  rngPending := false
  rngLo := 0
  rngHi := 0

/-- The machine right after reset: the block reset, nothing for the host to do, no turn fixed (R45; log entries 3, 4). -/
def State.reset : State where
  blk := Block.reset
  page := 0
  program := []
  reads := []
  turns := []

end Sys2Proof.Machine
end

