-- ==== Sys2Proof/Machine/Flags.lean ====
section
/-! DEFINITION. STATUS: its word, its flags, what clears them, and the interrupt (R24 to R29, R41, R138). -/

namespace Sys2Proof.Machine

/-- STATUS.BUSY (R24). -/
def Block.busy (b : Block) : Bool := decide (b.seq ≠ .idle)

/-- STATUS.RNGWAIT (R28). -/
def Block.rngwait (b : Block) : Bool := decide (b.seq = .rngwait)

/-- The word a read of STATUS returns (layout before R24). -/
def Block.statusWord (b : Block) : Word :=
  (0 : BitVec 20) ++ b.errcode ++ (0 : BitVec 3) ++ BitVec.ofBool b.rngwait ++ BitVec.ofBool b.ovr
    ++ BitVec.ofBool b.err ++ BitVec.ofBool b.done ++ BitVec.ofBool b.busy

/-- The interrupt output, a level (R41, R148). -/
def Block.irq (b : Block) : Bool := b.ie && (b.done || b.err)

/-- The first line of an issue: DONE, ERR and ERRCODE are cleared, OVR is not (R130). -/
def clearFlags (b : Block) : Block := { b with done := false, err := false, errcode := 0 }

/-- A STATUS write: bits 1, 2 and 3 clear what they name, ERR together with ERRCODE (R138). -/
def writeStatus (v : Word) (b : Block) : Block :=
  { b with
    done := b.done && !v.getLsbD 1
    err := b.err && !v.getLsbD 2
    errcode := if v.getLsbD 2 then 0 else b.errcode
    ovr := b.ovr && !v.getLsbD 3 }

end Sys2Proof.Machine
end

