-- ==== Sys2Proof/Machine/Operands.lean ====
section
/-! DEFINITION. Operands and results: 64-bit values over pairs of 32-bit registers, and the snapshot (R36, R56, R75, R76). -/

namespace Sys2Proof.Machine

/-- `x[X_HI] ++ x[X_LO]` (R10, R56). -/
def join (hi lo : Word) : Dword := hi ++ lo

/-- `X[31:0]` (R56). -/
def lowWord (x : Dword) : Word := x.extractLsb' 0 32

/-- `X[63:32]` (R56). -/
def highWord (x : Dword) : Word := x.extractLsb' 32 32

/-- `x[A]` (R31). -/
def Block.opA (b : Block) : Dword := join b.aHi b.aLo

/-- `x[B]` (R32). -/
def Block.opB (b : Block) : Dword := join b.bHi b.bLo

/-- `x[M]` (R33). -/
def Block.opM (b : Block) : Dword := join b.mHi b.mLo

/-- `x[R]` (R34). -/
def Block.result (b : Block) : Dword := join b.rHi b.rLo

/-- `x[WIT]` (R34). -/
def Block.witness (b : Block) : Dword := join b.witHi b.witLo

/-- `SA <- x[A]; SB <- x[B]; SM <- x[M]` (R36, R130). -/
def takeSnapshot (b : Block) : Block := { b with sa := b.opA, sb := b.opB, sm := b.opM }

/-- The assignments of a `finish`: what is not listed is not written (R132). -/
structure Results where
  r : Option Dword := none
  rounds : Option (BitVec 5) := none
  wit : Option Dword := none
  deriving DecidableEq, Repr

/-- The listed assignments, R and WIT split into their two words (R76, R132). -/
def writeResults (res : Results) (b : Block) : Block :=
  { b with
    rLo := (res.r.map lowWord).getD b.rLo
    rHi := (res.r.map highWord).getD b.rHi
    rounds := res.rounds.getD b.rounds
    witLo := (res.wit.map lowWord).getD b.witLo
    witHi := (res.wit.map highWord).getD b.witHi }

/-- A Boolean result is 1 for true and 0 for false (R76). -/
def boolResult (p : Bool) : Dword := if p then 1 else 0

end Sys2Proof.Machine
end

