-- ==== Sys2Proof/Machine/Ops.lean ====
section
/-! DEFINITION. The shared operations: errors and terminations, issue, witness requests, and the registers of the window
(R22 to R34, R130 to R139, R145, R116). -/

namespace Sys2Proof.Machine

/-- The errors of the block (R141). -/
inductive ErrorCode where
  | invalidModulus
  | illegalCommand
  | invalidCandidate
  | witnessOutOfRange
  | aborted
  | rngRange
  deriving DecidableEq, Repr

/-- The codes as ERRCODE holds them (R141). -/
def ErrorCode.code : ErrorCode → BitVec 4
  | .invalidModulus => 1
  | .illegalCommand => 2
  | .invalidCandidate => 3
  | .witnessOutOfRange => 4
  | .aborted => 5
  | .rngRange => 6

/-- `raise Error(code)`, the error termination: the block's trap entry (R145). Its return is the host's clearing of the
flags, `writeStatus`, or the next issue, `clearFlags` (R150). -/
def raiseError (c : ErrorCode) (b : Block) : Block :=
  { b with err := true, errcode := c.code, rngPending := false, seq := .idle }

/-- `finish(...)`, the successful termination (R132). -/
def finish (res : Results) (b : Block) : Block :=
  { writeResults res b with done := true, rngPending := false, seq := .idle }

/-- The first part of an issue, for a legal word: flags cleared, `op` and the snapshot taken (R130). -/
def beginCommand (opc : BitVec 8) (b : Block) : Block := takeSnapshot { clearFlags b with op := opc }

/-- The issue of an illegal word (R72, R130): nothing is read, only the error is recorded. -/
def illegalCommand (b : Block) : Block := raiseError .illegalCommand (clearFlags b)

/-- `seq <- EXEC`, the end of an issue whose checks pass (R130). -/
def startExec (b : Block) : Block := { b with seq := .exec }

/-- The engine's step of `DrawWitness(lo, hi)` (R116). -/
def requestWitness (lo hi : Dword) (b : Block) : Block :=
  { b with rngLo := lo, rngHi := hi, rngPending := true, seq := .rngwait }

/-- The random source's step of `DrawWitness` (R40, R116): enabled only while a request is pending. -/
def answerWitness (v : Dword) (b : Block) : Block :=
  if b.rngPending then { b with a := v, rngPending := false, seq := .exec } else b

/-- A command's rule has a part at issue and a part in EXEC (R92, R93, R113, R114, R130): `exec` gives a command the one
its sequencer state asks for. In RNGWAIT the engine takes no step (R116). -/
def runPhase (opc : BitVec 8) (atIssue inExec : Block → Block) (b : Block) : Block :=
  match b.seq with
  | .idle => atIssue (beginCommand opc b)
  | .exec => inExec b
  | .rngwait => b

/-- The ModPow working registers, written back (R37). -/
def setPow (p : PowRegs) (b : Block) : Block := { b with acc := p.acc, bp := p.bp, e := p.e, prod := p.prod }

/-- The witness loop's working registers, written back (R38). -/
def setRound (q : RoundRegs) (b : Block) : Block := { b with t := q.t, y := q.y, prod := q.prod }

/-- A round on `b.n`, `b.d`, `b.a` with its working registers written (R38, R111). -/
def runRound (b : Block) : Block :=
  let p := powRun b.a b.d b.n b.prod
  setRound (roundRun b.n b.d p) (setPow p b)

/-- The verdict of the round just run (R111). -/
def lastVerdict (b : Block) : Verdict := roundVerdict b.n { t := b.t, y := b.y, prod := b.prod }

/-- The identifier of the block (R22). -/
def idWord : Word := 0x504B4501

/-- A well-formed read of a named register (R20 to R34). -/
def readReg (b : Block) : Reg → Word
  | .id => idWord
  | .ctrl => (BitVec.ofBool b.ie).setWidth 32
  | .status => b.statusWord
  | .cmd => 0
  | .aLo => b.aLo
  | .aHi => b.aHi
  | .bLo => b.bLo
  | .bHi => b.bHi
  | .mLo => b.mLo
  | .mHi => b.mHi
  | .rLo => b.rLo
  | .rHi => b.rHi
  | .rounds => b.rounds.setWidth 32
  | .witLo => b.witLo
  | .witHi => b.witHi

/-- A well-formed read at an offset; a reserved offset reads 0 (R52, R54). -/
def readWindow (b : Block) (off : Nat) : Word :=
  match regAt off with
  | some reg => readReg b reg
  | none => 0

/-- The byte at offset `off` of the window, as the lanes carry it (R55). -/
def windowByte (b : Block) (off : Nat) : Byte := laneByte (readWindow b (off - off % 4)) (off % 4)

/-- A CTRL write: SRST, else IE, then ABORT where a command runs (R135 to R137). -/
def writeCtrl (v : Word) (b : Block) : Block :=
  if v.getLsbD 2 then Block.reset
  else if v.getLsbD 1 = true ∧ b.seq ≠ .idle then raiseError .aborted { b with ie := v.getLsbD 0 }
  else { b with ie := v.getLsbD 0 }

/-- A CMD write while a command runs (R131). -/
def overrun (b : Block) : Block := { b with ovr := true }

/-- A well-formed write of a register other than CMD (R135, R138, R139). -/
def writeReg (v : Word) (b : Block) : Reg → Block
  | .ctrl => writeCtrl v b
  | .status => writeStatus v b
  | .aLo => { b with aLo := v }
  | .aHi => { b with aHi := v }
  | .bLo => { b with bLo := v }
  | .bHi => { b with bHi := v }
  | .mLo => { b with mLo := v }
  | .mHi => { b with mHi := v }
  | .id => b
  | .cmd => b
  | .rLo => b
  | .rHi => b
  | .rounds => b
  | .witLo => b
  | .witHi => b

/-- `PKE_BASE` (R51). -/
def State.base (s : State) : Nat := 0x100 * s.page

/-- A change of the block alone. -/
def State.mapBlock (s : State) (f : Block → Block) : State := { s with blk := f s.blk }

/-- The host records a read (R78). -/
def State.record (s : State) (off : Nat) (v : Word) : State := { s with reads := s.reads ++ [(off, v)] }

end Sys2Proof.Machine
end

