-- ==== Sys2Proof/Machine/Control.lean ====
section
/-! DEFINITION. The meaning of NOP (R134). -/

namespace Sys2Proof.Machine

/-- NOP: at issue, `finish()` with no assignments (R134). It ends at issue, so no step of it is taken in EXEC. -/
def execNop (s : State) : Host.Outcome State Fault Refusal :=
  .next (s.mapBlock (runPhase (opcode .nop) (finish {}) id))

end Sys2Proof.Machine
end

