-- ==== Sys2Proof/Machine/Modexp.lean ====
section
/-! DEFINITION. The meanings of MODMUL and MODPOW (R92, R93). -/

namespace Sys2Proof.Machine

/-- "if SM = 0: raise Error(InvalidModulus)", else `seq <- EXEC` (R92, R93). -/
def issueModulus (b : Block) : Block :=
  if b.sm = 0 then raiseError .invalidModulus b else startExec b

/-- MODMUL in EXEC (R92). -/
def computeModmul (b : Block) : Block :=
  finish { r := some (modMulCore b.sa b.sb b.sm) } { b with prod := product b.sa b.sb }

/-- MODPOW in EXEC (R93). -/
def computeModpow (b : Block) : Block :=
  let p := powRun b.sa b.sb b.sm b.prod
  finish { r := some p.acc } (setPow p b)

/-- MODMUL (R92). -/
def execModmul (s : State) : Host.Outcome State Fault Refusal :=
  .next (s.mapBlock (runPhase (opcode .modmul) issueModulus computeModmul))

/-- MODPOW (R93). -/
def execModpow (s : State) : Host.Outcome State Fault Refusal :=
  .next (s.mapBlock (runPhase (opcode .modpow) issueModulus computeModpow))

end Sys2Proof.Machine
end

