-- ==== Sys2Proof/Machine/Primality.lean ====
section
/-! DEFINITION. The meanings of MRROUND and PRIMETEST (R113, R114). -/

namespace Sys2Proof.Machine

/-- `MR_ROUNDS`, the rounds of a PRIMETEST (R7, R114). -/
def mrRounds : Nat := 20

/-- `SM[0] = 0 or SM < 3` (R113). -/
def candidateInvalid (n : Dword) : Bool := !n.getLsbD 0 || decide (n.toNat < 3)

/-- `a < 1 or a > n − 2` (R113, R114), for `n ≥ 3`. -/
def witnessOutside (n a : Dword) : Bool := decide (a.toNat < 1) || decide (n.toNat - 2 < a.toNat)

/-- MRROUND at issue: the candidate is checked before the witness (R113, R144). -/
def issueMrround (b : Block) : Block :=
  if candidateInvalid b.sm then raiseError .invalidCandidate b
  else if witnessOutside b.sm b.sa then raiseError .witnessOutOfRange b
  else startExec b

/-- MRROUND in EXEC (R113). -/
def computeMrround (b : Block) : Block :=
  let b1 := runRound { b with n := b.sm, d := decomposeOdd b.sm, a := b.sa }
  finish { r := some (boolResult (lastVerdict b1 == .pass)), rounds := some 1, wit := some b.sa } b1

/-- MRROUND (R113). -/
def execMrround (s : State) : Host.Outcome State Fault Refusal :=
  .next (s.mapBlock (runPhase (opcode .mrround) issueMrround computeMrround))

/-- PRIMETEST at issue: no operand check; the round counter is cleared, so that EXEC begins at the fast paths (R114). -/
def issuePrimetest (b : Block) : Block := startExec { b with r := 0 }

/-- The fast paths of PRIMETEST in the source's order: what they decide, if they decide (R114). -/
def fastPath (n : Dword) : Option Bool :=
  if n = 2 then some true
  else if n = 1 ∨ n.getLsbD 0 = false then some false
  else if 3 < n.toNat ∧ n.toNat % 6 ≠ 1 ∧ n.toNat % 6 ≠ 5 then some false
  else none

/-- PRIMETEST in EXEC before any round: a fast path ends it, or the first witness is requested (R114). -/
def beginPrimetest (b : Block) : Block :=
  let b1 := { b with n := b.sm }
  match fastPath b.sm with
  | some p => finish { r := some (boolResult p), rounds := some 0, wit := some 0 } b1
  | none => requestWitness 1 (b.sm - 2) { b1 with d := decomposeOdd b.sm, r := 1 }

/-- PRIMETEST in EXEC with the witness of round `r` answered: the range check, the round, and what follows it (R114). -/
def roundPrimetest (b : Block) : Block :=
  if witnessOutside b.n b.a then raiseError .rngRange b
  else
    let b1 := runRound b
    match lastVerdict b1 with
    | .composite => finish { r := some 0, rounds := some b.r, wit := some b.a } b1
    | .pass =>
      if b.r.toNat < mrRounds then requestWitness 1 (b.n - 2) { b1 with r := b.r + 1 }
      else finish { r := some 1, rounds := some (BitVec.ofNat 5 mrRounds), wit := some b.a } b1

/-- PRIMETEST in EXEC: the round counter is the position in its loop (R35, R38, R114). -/
def computePrimetest (b : Block) : Block :=
  if b.r = 0 then beginPrimetest b else roundPrimetest b

/-- PRIMETEST (R114). -/
def execPrimetest (s : State) : Host.Outcome State Fault Refusal :=
  .next (s.mapBlock (runPhase (opcode .primetest) issuePrimetest computePrimetest))

end Sys2Proof.Machine
end

