-- ==== Sys2Proof/Machine/Dispatch.lean ====
section
/-! DEFINITION. One arm per command (R71): the step of a command that the sequencer's state asks for. -/

namespace Sys2Proof.Machine

def exec (i : Instr) (s : State) : Host.Outcome State Fault Refusal :=
  match i with
  | .nop => Sys2Proof.Machine.execNop s
  | .modpow => Sys2Proof.Machine.execModpow s
  | .modmul => Sys2Proof.Machine.execModmul s
  | .mrround => Sys2Proof.Machine.execMrround s
  | .primetest => Sys2Proof.Machine.execPrimetest s

end Sys2Proof.Machine
end

