-- ==== Sys2Proof/Machine/Agents.lean ====
section
/-! DEFINITION. The turns of the agents: the host's accesses, the engine's step, the random source's answer, the reset
input, and who moves next (R6, R40, R42, R130, R131, R133, R147, R170). -/

namespace Sys2Proof.Machine

/-- A CMD write: an issue while IDLE, an overrun otherwise (R130, R131). The word is decoded only at issue (R74). -/
def commandWrite (v : Word) (s : State) : Host.Outcome State Fault Refusal :=
  match s.blk.seq with
  | .idle =>
    match decodeWord v with
    | .command i => exec i s
    | .reject _ => .next (s.mapBlock illegalCommand)
  | .exec => .next (s.mapBlock overrun)
  | .rngwait => .next (s.mapBlock overrun)

/-- A well-formed write at an offset; a write to a reserved offset is ignored (R52, R54, R139). -/
def writeWindow (off : Nat) (v : Word) (s : State) : Host.Outcome State Fault Refusal :=
  match regAt off with
  | some .cmd => commandWrite v s
  | some reg => .next (s.mapBlock fun b => writeReg v b reg)
  | none => .next s

/-- One access of the host (R51 to R54, R57). -/
def hostAccess (acc : Access) (s : State) : Host.Outcome State Fault Refusal :=
  match decodeAccess s.base acc with
  | .outside => .next s
  | .malformed => .fault (.malformedAccess 0)
  | .read off => .next (s.record off (readWindow s.blk off))
  | .write off v => writeWindow off v s

/-- One read of a `poll`: the host goes on with its program when BUSY reads 0 (R79). -/
def hostPoll (rest : List HostOp) (s : State) : State :=
  let s1 := s.record Reg.status.offset (readReg s.blk .status)
  if (readReg s.blk .status).getLsbD 0 then s1 else { s1 with program := rest }

/-- The host's turn: the next operation of its program, in program order (R60). -/
def hostTurn (s : State) : Host.Outcome State Fault Refusal :=
  match s.program with
  | [] => .next s
  | .access acc :: rest => hostAccess acc { s with program := rest }
  | .poll :: rest => .next (hostPoll rest s)

/-- The engine's turn: its step on the current command while in EXEC; in IDLE and RNGWAIT it has none (R35, R133). -/
def engineTurn (s : State) : Host.Outcome State Fault Refusal :=
  match s.blk.seq with
  | .exec =>
    match decodeOpcode s.blk.op with
    | some i => exec i s
    | none => .fault .noSuchOpcode
  | .idle => .next s
  | .rngwait => .next s

/-- One turn (R6, R147). The `rst` input resets the block, and neither the host nor the random source (R170, R173). -/
def takeTurn (t : Turn) (s : State) : Host.Outcome State Fault Refusal :=
  match t with
  | .host => hostTurn s
  | .engine => engineTurn s
  | .random v => .next (s.mapBlock (answerWitness v))
  | .rst => .next (s.mapBlock fun _ => Block.reset)
  | .otherMaster => .refused .secondBusMaster

/-- Who moves next: the next turn listed; with none listed, the engine while it has a step (weak fairness, R183), else
the host. -/
def nextTurn (s : State) : Turn :=
  match s.turns with
  | t :: _ => t
  | [] => if s.blk.seq = .exec then .engine else .host

/-- The listed turn is used up. -/
def State.dropTurn (s : State) : State := { s with turns := s.turns.tail }

/-- `s`, with `t` as the next turn. -/
def State.withTurn (s : State) (t : Turn) : State := { s with turns := t :: s.turns }

/-- `s`, with the host's next operation `h` and its turn to perform it. -/
def State.withHost (s : State) (h : HostOp) : State := { s with program := h :: s.program, turns := .host :: s.turns }

/-- `s`, with the host about to read 4 bytes at `PKE_BASE + off` (R12). -/
def State.hostReads (s : State) (off : Nat) : State := s.withHost (.access (.read (s.base + off) .word))

/-- `s`, with the host about to write the word `v` at `PKE_BASE + off` (R12). -/
def State.hostWrites (s : State) (off : Nat) (v : Word) : State :=
  s.withHost (.access (.write (s.base + off) (.word v)))

/-- `s` with the engine IDLE and no request pending: a CMD write then issues a command (R130). -/
def State.engineIdle (s : State) : State :=
  s.mapBlock fun b => { b with seq := .idle, rngPending := false }

/-- `s` with the engine idle and the host about to write the command word `w` to CMD (R30, R172). -/
def State.placeCommand (s : State) (w : Word) : State := s.engineIdle.hostWrites Reg.cmd.offset w

end Sys2Proof.Machine
end

