-- ==== Sys2Proof/Machine/Step.lean ====
section
/-! DEFINITION. One step of the machine: the next turn, taken (R147). -/

namespace Sys2Proof.Machine

/-- One indivisible step of one agent (R57, R61, R147). -/
def step (s : State) : Host.Outcome State Fault Refusal := takeTurn (nextTurn s) s.dropTurn

/-- The block fetches nothing: a command arrives by the host's write to CMD (R35, R64). So the next step of the result
is that write, on an idle engine (log entries 4 and 15). -/
def State.withFetchWord (s : State) (nbits w : Nat) : State :=
  s.placeCommand (BitVec.ofNat 32 (w % 2 ^ nbits))

end Sys2Proof.Machine
end

