-- ==== Sys2Proof/Machine/Script.lean ====
section
/-! DEFINITION. Host scripts: the statements of R78 and R79 and the accesses each stands for (R78 to R80). -/

namespace Sys2Proof.Machine

/-- A register name or a hexadecimal offset (R78). -/
inductive RegRef where
  | name (reg : Reg)
  | offset (off : Nat)
  deriving DecidableEq, Repr

/-- The offset a reference stands for (R78). -/
def RegRef.off : RegRef → Nat
  | .name reg => reg.offset
  | .offset off => off

/-- "X one of A, B, M" (R79). -/
inductive OperandName where
  | a | b | m
  deriving DecidableEq, Repr

/-- The operand's words, low then high (R79). -/
def OperandName.words : OperandName → Reg × Reg
  | .a => (.aLo, .aHi)
  | .b => (.bLo, .bHi)
  | .m => (.mLo, .mHi)

/-- "X one of R, WIT" (R79). -/
inductive ResultName where
  | r | wit
  deriving DecidableEq, Repr

/-- The result's words, low then high (R79). -/
def ResultName.words : ResultName → Reg × Reg
  | .r => (.rLo, .rHi)
  | .wit => (.witLo, .witHi)

/-- The statements of a host script (R78, R79). -/
inductive Stmt where
  | wr (reg : RegRef) (v : Word)
  | rd (reg : RegRef)
  | ld64 (x : OperandName) (v : Dword)
  | cmd (i : Instr)
  | poll
  | run (i : Instr)
  | rd64 (x : ResultName)
  | clr
  | abort
  | srst
  deriving DecidableEq, Repr

/-- `MemWrite(PKE_BASE + off, 4, v)` (R12). -/
def memWrite (base off : Nat) (v : Word) : HostOp := .access (.write (base + off) (.word v))

/-- `MemRead(PKE_BASE + off, 4)` (R12). -/
def memRead (base off : Nat) : HostOp := .access (.read (base + off) .word)

/-- A statement's expansion; `ie` is the IE the script last wrote, which `abort` keeps (R78, R79). -/
def Stmt.expand (base : Nat) (ie : Bool) : Stmt → List HostOp
  | .wr reg v => [memWrite base reg.off v]
  | .rd reg => [memRead base reg.off]
  | .ld64 x v => [memWrite base x.words.1.offset (lowWord v), memWrite base x.words.2.offset (highWord v)]
  | .cmd i => [memWrite base Reg.cmd.offset (encodeWord i)]
  | .poll => [.poll]
  | .run i => [memWrite base Reg.cmd.offset (encodeWord i), .poll]
  | .rd64 x => [memRead base x.words.1.offset, memRead base x.words.2.offset]
  | .clr => [memWrite base Reg.status.offset 0x0000000E]
  | .abort => [memWrite base Reg.ctrl.offset ((BitVec.ofBool ie).setWidth 32 + 0x2)]
  | .srst => [memWrite base Reg.ctrl.offset 0x4]

/-- The IE the script has last written after a statement (R79): bit 0 of a `wr` to CTRL, and 0 after `srst`. DESIGN CHOICE,
log entry 21: a `wr` to CTRL with SRST and bit 0 both set counts as having written IE = 1, although the reset leaves IE 0
(R135). -/
def Stmt.ieAfter (ie : Bool) : Stmt → Bool
  | .wr reg v => if reg.off = Reg.ctrl.offset then v.getLsbD 0 else ie
  | .srst => false
  | .rd _ => ie
  | .ld64 _ _ => ie
  | .cmd _ => ie
  | .poll => ie
  | .run _ => ie
  | .rd64 _ => ie
  | .clr => ie
  | .abort => ie

/-- A script's accesses, in order (R78, R79). -/
def assemble (base : Nat) (ie : Bool) : List Stmt → List HostOp
  | [] => []
  | st :: rest => st.expand base ie ++ assemble base (st.ieAfter ie) rest

/-- `modpow(base, exponent, modulus)` as R80 compiles it. -/
def modpowCall (b e m : Dword) : List Stmt :=
  [.ld64 .a b, .ld64 .b e, .ld64 .m m, .run .modpow, .rd64 .r]

/-- `is_probable_prime(n)` as R80 compiles it. -/
def isProbablePrimeCall (n : Dword) : List Stmt := [.ld64 .m n, .run .primetest, .rd (.name .rLo)]

/-- The host's program with a script added at its end, `ie` being the IE it last wrote. -/
def State.loadScript (s : State) (ie : Bool) (script : List Stmt) : State :=
  { s with program := s.program ++ assemble s.base ie script }

end Sys2Proof.Machine
end

