-- ==== Sys2Proof/WellFormed.lean ====
section
/-! DEFINITION. What is well-formed: commands, command words, host accesses (R52, R70, R72). -/

namespace Sys2Proof

/-- A command has no operand field, so every constructor is well-formed (R70, R75). -/
def Instr.wf : Instr → Bool
  | .nop => true
  | .modpow => true
  | .modmul => true
  | .mrround => true
  | .primetest => true

/-- A legal command word: reserved bits zero and an opcode below `0x05` (R72). -/
def commandWordWf (v : Word) : Bool :=
  decide (rsvdField v = 0) && decide ((opcField v).toNat < 0x05)

/-- A well-formed host access: 4 bytes, at `base + off`, `off` in `[0x00, 0xFC]`, `off[1:0] = 0` (R52). -/
def Machine.Access.wf (base : Nat) : Machine.Access → Bool
  | .read addr size =>
    decide (size.bytes = 4) && decide (base ≤ addr) && decide (addr ≤ base + 0xFC) && decide ((addr - base) % 4 = 0)
  | .write addr data =>
    decide (data.size.bytes = 4) && decide (base ≤ addr) && decide (addr ≤ base + 0xFC)
      && decide ((addr - base) % 4 = 0)

end Sys2Proof
end

