-- ==== Sys2Proof/Safety.lean ====
section
/-! DEFINITION. The terms the claims use: the invariants of the block, what another agent can cause, what the host can
observe, and the arithmetic a round is compared with. -/

namespace Sys2Proof.Machine

/-- The invariants of R46, with the range of the round counter (R38) and the pending flag (R39). -/
structure StatusInv (b : Block) : Prop where
  /-- "BUSY = 1 implies DONE = 0 and ERR = 0". -/
  busy_clear : b.seq ≠ .idle → b.done = false ∧ b.err = false
  /-- "DONE and ERR are never both 1". -/
  not_both : ¬(b.done = true ∧ b.err = true)
  /-- "RNGWAIT = 1 implies BUSY = 1 and op = 0x04 (PRIMETEST)"; RNGWAIT and BUSY are views of `seq`. -/
  waiting : b.seq = .rngwait → b.op = 0x04
  /-- "ERR = 0 if and only if ERRCODE = 0". -/
  err_code : b.err = false ↔ b.errcode = 0
  /-- "ERRCODE is never 7 to 15". -/
  code_range : b.errcode.toNat ≤ 6
  /-- "ROUNDS.COUNT ≤ 20". -/
  rounds_range : b.rounds.toNat ≤ 20
  /-- "the round counter r (5 bits, 0 to 20)" (R38). -/
  counter_range : b.r.toNat ≤ 20
  /-- "rng_pending = 1 exactly when seq = RNGWAIT" (R39). -/
  pending : b.rngPending = true ↔ b.seq = .rngwait

/-- `n` is an odd candidate of at least 3: what a round needs (R110, R113). -/
def OddCandidate (n : Nat) : Prop := n % 2 = 1 ∧ 3 ≤ n

/-- `d` is the odd part of `n − 1` (R110). -/
def OddPart (n d : Nat) : Prop := d % 2 = 1 ∧ ∃ k, 1 ≤ k ∧ n - 1 = d * 2 ^ k

/-- A running command passed the checks of its issue, and a PRIMETEST in its rounds holds what its rounds read
(R92, R93, R113, R114, R130). -/
structure CommandInv (b : Block) : Prop where
  /-- The engine runs MODPOW, MODMUL, MRROUND or PRIMETEST: a NOP ends at issue. -/
  legal : b.seq ≠ .idle → b.op = 0x01 ∨ b.op = 0x02 ∨ b.op = 0x03 ∨ b.op = 0x04
  /-- MODPOW and MODMUL run with a modulus of at least 1. -/
  modulus : b.seq ≠ .idle → b.op = 0x01 ∨ b.op = 0x02 → b.sm ≠ 0
  /-- MRROUND runs with an odd candidate of at least 3 and a witness in `[1, n − 2]`. -/
  round : b.seq ≠ .idle → b.op = 0x03 →
    OddCandidate b.sm.toNat ∧ 1 ≤ b.sa.toNat ∧ b.sa.toNat ≤ b.sm.toNat - 2
  /-- A PRIMETEST past its first request holds its candidate and the candidate's odd part. -/
  test : b.seq ≠ .idle → b.op = 0x04 → b.r ≠ 0 →
    b.n = b.sm ∧ OddCandidate b.n.toNat ∧ OddPart b.n.toNat b.d.toNat
  /-- A waiting PRIMETEST has requested a witness in `[1, n − 2]`. -/
  request : b.seq = .rngwait → b.r ≠ 0 ∧ b.rngLo.toNat = 1 ∧ b.rngHi.toNat = b.sm.toNat - 2

/-- Both invariants. -/
def BlockInv (b : Block) : Prop := StatusInv b ∧ CommandInv b

/-- The next step of `s` is the host's well-formed write of `v` at offset `off`. -/
def WritesNext (s : State) (off : Nat) (v : Word) : Prop :=
  nextTurn s = .host ∧ ∃ rest, s.program = .access (.write (s.base + off) (.word v)) :: rest

/-- The next step of `s` resets the block: the `rst` input, or a CTRL write with SRST set (R170). -/
def ResetsNext (s : State) : Prop :=
  nextTurn s = .rst ∨ ∃ v, WritesNext s Reg.ctrl.offset v ∧ v.getLsbD 2 = true

/-- `a` passes a Miller–Rabin round on `n`, in terms of powers: with `n − 1 = d·2^k` and `d` odd, `a^d` is 1, or one of
`a^(d·2^j)` with `j ≤ k` is `n − 1`, modulo `n` (R111, R112). -/
def StrongPass (n a : Nat) : Prop :=
  ∃ d k, d % 2 = 1 ∧ n - 1 = d * 2 ^ k ∧ (a ^ d % n = 1 ∨ ∃ j, j ≤ k ∧ a ^ (d * 2 ^ j) % n = n - 1)

/-- The candidate goes through the fast paths of PRIMETEST to the rounds (R114). -/
def ReachesRounds (n : Nat) : Prop := n % 2 = 1 ∧ n ≠ 1 ∧ (3 < n → n % 6 = 1 ∨ n % 6 = 5)

/-- The random source answers each request in turn, and the engine takes its step after each answer (R116). -/
def serve : List Dword → List Turn
  | [] => []
  | v :: vs => .random v :: .engine :: serve vs

/-- Everything the host can read of the block, now or later, is equal: all registers, the sequencer, the request on the
random-source port, and of the hidden registers those the running command still reads. Stale working registers may
differ (R37, R38, R45). -/
structure SameToHost (b b' : Block) : Prop where
  ie : b.ie = b'.ie
  done : b.done = b'.done
  err : b.err = b'.err
  ovr : b.ovr = b'.ovr
  errcode : b.errcode = b'.errcode
  operands : b.opA = b'.opA ∧ b.opB = b'.opB ∧ b.opM = b'.opM
  results : b.result = b'.result ∧ b.rounds = b'.rounds ∧ b.witness = b'.witness
  seq : b.seq = b'.seq
  pending : b.rngPending = b'.rngPending
  running : b.seq ≠ .idle → b.op = b'.op ∧ b.sa = b'.sa ∧ b.sb = b'.sb ∧ b.sm = b'.sm
  request : b.rngPending = true → b.rngLo = b'.rngLo ∧ b.rngHi = b'.rngHi
  position : b.seq ≠ .idle → b.op = 0x04 → b.r = b'.r
  candidate : b.seq ≠ .idle → b.op = 0x04 → b.r ≠ 0 → b.n = b'.n ∧ b.d = b'.d
  answered : b.seq = .exec → b.op = 0x04 → b.r ≠ 0 → b.a = b'.a

end Sys2Proof.Machine
end

