-- ==== Sys2Proof/Certificates/Slice0/Obligations.lean ====
section
/-! DEFINITION. The statements for the provers, from the numbered rules of spec/. -/

open Sys2Proof Sys2Proof.Machine

/-! ### Encoding (R55, R70 to R72) -/

/-- R71: the five full words of the opcode map, written out, decode to their commands; R72: words beside them do not. -/
def Obligations.OpcodeMapWordsDecode : Prop :=
  decodeWord 0x00000000 = .command .nop ∧ decodeWord 0x00000001 = .command .modpow ∧
  decodeWord 0x00000002 = .command .modmul ∧ decodeWord 0x00000003 = .command .mrround ∧
  decodeWord 0x00000004 = .command .primetest ∧ decodeWord 0x00000005 = .reject .reservedOpcode ∧
  decodeWord 0x000000FF = .reject .reservedOpcode ∧ decodeWord 0x00000101 = .reject .reservedBitsSet ∧
  decode [0x04, 0x00, 0x00, 0x00] = .command .primetest ∧ decode [0x00, 0x00, 0x00, 0x04] = .reject .reservedBitsSet

/-- R70, R71, R55: a byte sequence is a command exactly when it is the four little-endian bytes of that command's word. -/
def Obligations.DecodeAcceptsExactlyTheEncodings : Prop :=
  ∀ (bs : List Byte) (i : Instr), decode bs = .command i ↔ bs = encode i

/-- R72: a word is rejected exactly when `v[31:8] ≠ 0` or `v[7:0] ≥ 0x05`, and issuing it ends at issue with
IllegalCommand, whatever the operands, and writes no result. -/
def Obligations.IllegalWordEndsAtIssue : Prop :=
  ∀ (s : State) (v : Word),
    ((∃ why, decodeWord v = .reject why) ↔ (v.extractLsb' 8 24 ≠ 0 ∨ 5 ≤ (v.extractLsb' 0 8).toNat)) ∧
    (s.blk.seq = .idle → (v.extractLsb' 8 24 ≠ 0 ∨ 5 ≤ (v.extractLsb' 0 8).toNat) →
      step (s.hostWrites 0x0C v) = .next { s with blk := { s.blk with
        done := false, err := true, errcode := 2, rngPending := false, seq := .idle } })

/-! ### What a step runs (R30, R35, R130, R133, R147) -/

/-- The machine's fetch is the host's CMD write (R130): on an idle engine, a step that performs the write of a command
word is `exec` of that command, and so is the step `withFetchWord` prepares, for each row of the opcode table. -/
def Obligations.StepIssuesTheDecodedCommand : Prop :=
  (∀ (s : State) (v : Word) (i : Instr), s.blk.seq = .idle → decodeWord v = .command i →
    step (s.hostWrites 0x0C v) = exec i s) ∧
  (∀ (s : State) (w : Nat) (i : Instr), decodeTableWord 32 w = some i →
    step (s.withFetchWord 32 w) = exec i s.engineIdle ∧
    (s.blk.seq = .idle → s.blk.rngPending = false → s.engineIdle = s))

/-- R35, R133: an engine turn in EXEC is `exec` of the current command; in IDLE and RNGWAIT the engine has no step. -/
def Obligations.EngineTurnRunsTheCurrentCommand : Prop :=
  ∀ (s : State),
    (∀ i, s.blk.seq = .exec → decodeOpcode s.blk.op = some i → step (s.withTurn .engine) = exec i s) ∧
    (s.blk.seq ≠ .exec → step (s.withTurn .engine) = .next s)

/-- The model's order where no turn is listed (log entry 1): the engine while it has a step, as the weak fairness of R183
asks, else the host. -/
def Obligations.UnlistedTurnIsEngineElseHost : Prop :=
  ∀ (s : State), s.turns = [] →
    (s.blk.seq = .exec → step s = step (s.withTurn .engine)) ∧
    (s.blk.seq ≠ .exec → step s = step (s.withTurn .host))

/-! ### Terminations (R132, R145) -/

/-- R145: `raise Error(code)` writes ERR, ERRCODE, the request flag and `seq`, and nothing else. -/
def Obligations.RaiseErrorWritesOnlyStatusAndSequencer : Prop :=
  ∀ (c : ErrorCode) (b : Block),
    raiseError c b = { b with err := true, errcode := c.code, rngPending := false, seq := .idle } ∧
    (raiseError c b).busy = false ∧ (raiseError c b).rngwait = false

/-- R132: `finish` performs the listed assignments, each 64-bit value split into its two words (R76), sets DONE,
withdraws a request and goes to IDLE. -/
def Obligations.FinishWritesListedResults : Prop :=
  ∀ (r : Dword) (k : BitVec 5) (w : Dword) (b : Block),
    finish {} b = { b with done := true, rngPending := false, seq := .idle } ∧
    finish { r := some r } b = { b with
      rLo := r.extractLsb' 0 32, rHi := r.extractLsb' 32 32, done := true, rngPending := false, seq := .idle } ∧
    finish { r := some r, rounds := some k, wit := some w } b = { b with
      rLo := r.extractLsb' 0 32, rHi := r.extractLsb' 32 32, rounds := k,
      witLo := w.extractLsb' 0 32, witHi := w.extractLsb' 32 32, done := true, rngPending := false, seq := .idle } ∧
    (finish {} b).busy = false

/-! ### Issue (R130, R131, R134, R144) -/

/-- R131, R74: any CMD write while the engine is busy sets OVR and does nothing else; the word is not decoded. -/
def Obligations.CommandWhileBusyOnlySetsOverrun : Prop :=
  ∀ (s : State) (v : Word), s.blk.seq ≠ .idle →
    step (s.hostWrites 0x0C v) = .next { s with blk := { s.blk with ovr := true } }

/-- R134: the word `0x00000000` written to CMD on an idle engine is NOP and finishes at issue: flags cleared, snapshot
taken, DONE set; R, ROUNDS and WIT keep their values; with IE set it raises `irq` at once. Written while busy, it is
dropped with OVR. -/
def Obligations.NopFinishesAtIssue : Prop :=
  ∀ (s : State),
    (s.blk.seq = .idle →
      ∃ t, exec .nop s = .next t ∧ step (s.hostWrites 0x0C 0x00000000) = .next t ∧
        t = { s with blk := { s.blk with
          done := true, err := false, errcode := 0, op := 0x00, sa := s.blk.aHi ++ s.blk.aLo,
          sb := s.blk.bHi ++ s.blk.bLo, sm := s.blk.mHi ++ s.blk.mLo, rngPending := false, seq := .idle } } ∧
        t.blk.irq = s.blk.ie) ∧
    (s.blk.seq ≠ .idle →
      step (s.hostWrites 0x0C 0x00000000) = .next { s with blk := { s.blk with ovr := true } })

/-- R130, R92, R93: MODMUL and MODPOW at issue: with `M = 0` the error InvalidModulus, else EXEC; the snapshot is taken
and the flags cleared in both. -/
def Obligations.ModulusCommandsIssue : Prop :=
  ∀ (s : State) (i : Instr), i = .modmul ∨ i = .modpow → s.blk.seq = .idle →
    exec i s = .next { s with blk := { s.blk with
      done := false, op := opcode i, sa := s.blk.aHi ++ s.blk.aLo, sb := s.blk.bHi ++ s.blk.bLo,
      sm := s.blk.mHi ++ s.blk.mLo,
      err := decide (s.blk.mHi ++ s.blk.mLo = 0#64), errcode := if s.blk.mHi ++ s.blk.mLo = 0#64 then 1 else 0,
      rngPending := if s.blk.mHi ++ s.blk.mLo = 0#64 then false else s.blk.rngPending,
      seq := if s.blk.mHi ++ s.blk.mLo = 0#64 then .idle else .exec } }

/-- R113, R130: MRROUND at issue: an even candidate or one below 3 is InvalidCandidate (code 3), whatever the witness;
else a witness outside `[1, M − 2]` is WitnessOutOfRange (code 4); else EXEC. -/
def Obligations.MrroundIssueChecks : Prop :=
  ∀ (s : State), s.blk.seq = .idle →
    let M := (s.blk.mHi ++ s.blk.mLo).toNat
    let A := (s.blk.aHi ++ s.blk.aLo).toNat
    let begun : Block := { s.blk with
      done := false, err := false, errcode := 0, op := 0x03, sa := s.blk.aHi ++ s.blk.aLo,
      sb := s.blk.bHi ++ s.blk.bLo, sm := s.blk.mHi ++ s.blk.mLo }
    (M % 2 = 0 ∨ M < 3 → exec .mrround s = .next { s with blk := { begun with
      err := true, errcode := 3, rngPending := false, seq := .idle } }) ∧
    (M % 2 = 1 → 3 ≤ M → A < 1 ∨ M - 2 < A → exec .mrround s = .next { s with blk := { begun with
      err := true, errcode := 4, rngPending := false, seq := .idle } }) ∧
    (M % 2 = 1 → 3 ≤ M → 1 ≤ A → A ≤ M - 2 → exec .mrround s = .next { s with blk := { begun with seq := .exec } })

/-- R114, R130: PRIMETEST at issue checks no operand: flags cleared, snapshot taken, EXEC. The cleared round counter is
the model's (log entry 6): it is the position in the loop of R114. -/
def Obligations.PrimetestIssueChecksNothing : Prop :=
  ∀ (s : State), s.blk.seq = .idle →
    exec .primetest s = .next { s with blk := { s.blk with
      done := false, err := false, errcode := 0, op := 0x04, sa := s.blk.aHi ++ s.blk.aLo,
      sb := s.blk.bHi ++ s.blk.bLo, sm := s.blk.mHi ++ s.blk.mLo, r := 0, seq := .exec } }

/-- R144: the checks of one issue, in their order, the first that applies giving the code; no check applying, no code. -/
def Obligations.IssueErrorPriority : Prop :=
  ∀ (s : State) (v : Word), s.blk.seq = .idle →
    let M := (s.blk.mHi ++ s.blk.mLo).toNat
    let A := (s.blk.aHi ++ s.blk.aLo).toNat
    ∃ t, step (s.hostWrites 0x0C v) = .next t ∧ (t.blk.err = false ↔ t.blk.errcode = 0) ∧
      t.blk.errcode =
        if v.extractLsb' 8 24 ≠ 0 ∨ 5 ≤ (v.extractLsb' 0 8).toNat then 2
        else if (v = 0x00000001 ∨ v = 0x00000002) ∧ M = 0 then 1
        else if v = 0x00000003 ∧ (M % 2 = 0 ∨ M < 3) then 3
        else if v = 0x00000003 ∧ (A < 1 ∨ M - 2 < A) then 4
        else 0

/-! ### Computation (R90 to R95, R110 to R119, R132, R133)

In these, `exec` in EXEC is the engine's step on the command (log entry 13), and the whole computation up to the next
termination or request is that one step, as R133 lets a model take it (log entry 2). -/

/-- R90, R92, R132: MODMUL in EXEC writes `(SA·SB) mod SM`, exact over 128 bits, sets DONE and goes to IDLE; of the other
registers it writes only the hidden product, whose value is the model's (log entry 6). -/
def Obligations.ModmulComputesProductModulo : Prop :=
  ∀ (s : State), s.blk.seq = .exec → s.blk.sm ≠ 0 →
    ∃ x : Dword, x.toNat = s.blk.sa.toNat * s.blk.sb.toNat % s.blk.sm.toNat ∧
      exec .modmul s = .next { s with blk := { s.blk with
        rLo := x.extractLsb' 0 32, rHi := x.extractLsb' 32 32, done := true, rngPending := false, seq := .idle,
        prod := BitVec.ofNat 128 (s.blk.sa.toNat * s.blk.sb.toNat) } }

/-- R91, R93, R94, R132: MODPOW in EXEC writes `SA^SB mod SM`, sets DONE and goes to IDLE; of the other registers it
writes only the ModPow working registers; that they are written, and `e` left 0, is the model's (log entry 6). -/
def Obligations.ModpowComputesPowerModulo : Prop :=
  ∀ (s : State), s.blk.seq = .exec → s.blk.sm ≠ 0 →
    ∃ (x bp : Dword) (prod : BitVec 128), x.toNat = s.blk.sa.toNat ^ s.blk.sb.toNat % s.blk.sm.toNat ∧
      exec .modpow s = .next { s with blk := { s.blk with
        rLo := x.extractLsb' 0 32, rHi := x.extractLsb' 32 32, done := true, rngPending := false, seq := .idle,
        acc := x, bp := bp, e := 0, prod := prod } }

/-- R110, R111, R113, R132: MRROUND in EXEC writes R = 1 exactly when the witness passes the round, ROUNDS = 1 and
WIT = SA, sets DONE and goes to IDLE; of the other registers it writes only working registers (log entry 6). -/
def Obligations.MrroundDecidesStrongPass : Prop :=
  ∀ (s : State), s.blk.seq = .exec → OddCandidate s.blk.sm.toNat → 1 ≤ s.blk.sa.toNat →
    s.blk.sa.toNat ≤ s.blk.sm.toNat - 2 →
    ∃ (x acc bp e d t y : Dword) (prod : BitVec 128),
      (x = 1 ∧ StrongPass s.blk.sm.toNat s.blk.sa.toNat ∨ x = 0 ∧ ¬StrongPass s.blk.sm.toNat s.blk.sa.toNat) ∧
      OddPart s.blk.sm.toNat d.toNat ∧
      exec .mrround s = .next { s with blk := { s.blk with
        rLo := x.extractLsb' 0 32, rHi := 0, rounds := 1, witLo := s.blk.sa.extractLsb' 0 32,
        witHi := s.blk.sa.extractLsb' 32 32, done := true, rngPending := false, seq := .idle,
        acc := acc, bp := bp, e := e, prod := prod, n := s.blk.sm, d := d, t := t, y := y, a := s.blk.sa } }

/-- R114: the fast paths of PRIMETEST, in the source's order, from EXEC before any round: R = 1 for 2; R = 0 for 1, for
the other even numbers, and for `n > 3` with `n mod 6` neither 1 nor 5; ROUNDS and WIT 0. That `r = 0` marks the start is the model's (log entry 6). -/
def Obligations.PrimetestFastPaths : Prop :=
  ∀ (s : State), s.blk.seq = .exec → s.blk.r = 0 → ¬ReachesRounds s.blk.sm.toNat →
    exec .primetest s = .next { s with blk := { s.blk with
      rLo := if s.blk.sm.toNat = 2 then 1 else 0, rHi := 0, rounds := 0, witLo := 0, witHi := 0,
      done := true, rngPending := false, seq := .idle, n := s.blk.sm } }

/-- R114, R116: a candidate that no fast path decides makes PRIMETEST request the witness of round 1 in `[1, n − 2]`. -/
def Obligations.PrimetestRequestsFirstWitness : Prop :=
  ∀ (s : State), s.blk.seq = .exec → s.blk.r = 0 → ReachesRounds s.blk.sm.toNat →
    ∃ d : Dword, OddPart s.blk.sm.toNat d.toNat ∧
      exec .primetest s = .next { s with blk := { s.blk with
        seq := .rngwait, rngPending := true, rngLo := 1, rngHi := s.blk.sm - 2, n := s.blk.sm, d := d, r := 1 } }

/-- R114, R116: an answer outside `[1, n − 2]` ends PRIMETEST with RngRange (code 6), and nothing else is written. -/
def Obligations.PrimetestRejectsOutOfRangeAnswer : Prop :=
  ∀ (s : State), s.blk.seq = .exec → s.blk.r ≠ 0 → 3 ≤ s.blk.n.toNat →
    s.blk.a.toNat < 1 ∨ s.blk.n.toNat - 2 < s.blk.a.toNat →
    exec .primetest s = .next { s with blk := { s.blk with
      err := true, errcode := 6, rngPending := false, seq := .idle } }

/-- R111, R114: a round of PRIMETEST on an answer in range: COMPOSITE ends it with R = 0, ROUNDS = r and WIT = a; a pass
requests the next witness, and after round 20 ends it with R = 1, ROUNDS = 20 and WIT = a; so ROUNDS counts the requests
(R115). Only working registers are written besides (log entry 6). -/
def Obligations.PrimetestRoundOutcome : Prop :=
  ∀ (s : State), s.blk.seq = .exec → s.blk.r ≠ 0 → s.blk.r.toNat ≤ 20 →
    OddCandidate s.blk.n.toNat → OddPart s.blk.n.toNat s.blk.d.toNat →
    1 ≤ s.blk.a.toNat → s.blk.a.toNat ≤ s.blk.n.toNat - 2 →
    ∃ (acc bp e t y : Dword) (prod : BitVec 128),
      let worked : Block := { s.blk with acc := acc, bp := bp, e := e, prod := prod, t := t, y := y }
      (¬StrongPass s.blk.n.toNat s.blk.a.toNat →
        exec .primetest s = .next { s with blk := { worked with
          rLo := 0, rHi := 0, rounds := s.blk.r, witLo := s.blk.a.extractLsb' 0 32,
          witHi := s.blk.a.extractLsb' 32 32, done := true, rngPending := false, seq := .idle } }) ∧
      (StrongPass s.blk.n.toNat s.blk.a.toNat → s.blk.r.toNat < 20 →
        exec .primetest s = .next { s with blk := { worked with
          seq := .rngwait, rngPending := true, rngLo := 1, rngHi := s.blk.n - 2, r := s.blk.r + 1 } }) ∧
      (StrongPass s.blk.n.toNat s.blk.a.toNat → s.blk.r.toNat = 20 →
        exec .primetest s = .next { s with blk := { worked with
          rLo := 1, rHi := 0, rounds := 20, witLo := s.blk.a.extractLsb' 0 32,
          witHi := s.blk.a.extractLsb' 32 32, done := true, rngPending := false, seq := .idle } })

/-- R40, R116: while a request is pending the random source's answer `v`, any 64-bit value, goes to the engine and clears
the request; with none pending the random source has no step. -/
def Obligations.RandomAnswerResumesEngine : Prop :=
  ∀ (s : State) (v : Dword),
    (s.blk.rngPending = true → step (s.withTurn (.random v)) = .next { s with blk := { s.blk with
      a := v, rngPending := false, seq := .exec } }) ∧
    (s.blk.rngPending = false → step (s.withTurn (.random v)) = .next s)

/-- R94, R90: `ModPowCore` is the power and `ModMulCore` the product modulo `m`, each below `m`. -/
def Obligations.DatapathMeetsItsArithmetic : Prop :=
  ∀ (a b e m : Dword), 1 ≤ m.toNat →
    (modPowCore b e m).toNat = b.toNat ^ e.toNat % m.toNat ∧
    (modMulCore a b m).toNat = a.toNat * b.toNat % m.toNat ∧
    (modPowCore b e m).toNat < m.toNat ∧ (modMulCore a b m).toNat < m.toNat

/-- R95: `bitlen(e)` squarings and `popcount(e)` multiplications, at most 128 together. -/
def Obligations.ModPowWorkCount : Prop :=
  ∀ (b e m : Dword),
    modPowSquarings b e m = e.toNat.size ∧
    modPowMultiplications b e m = (List.range 64).countP (fun k => e.getLsbD k) ∧
    modPowSquarings b e m + modPowMultiplications b e m ≤ 128

/-- R110: for odd `n ≥ 3`, `DecomposeOdd(n)` is the odd `d` with `n − 1 = d·2^s`, `s ≥ 1`. -/
def Obligations.DecomposeOddIsTheOddPart : Prop :=
  ∀ (n : Dword), OddCandidate n.toNat → OddPart n.toNat (decomposeOdd n).toNat

/-- R112: with `n − 1 = d·2^s`, after `j` squarings of the witness loop `t = d·2^j`, `j ≤ s`, `t ≤ n − 1` and `y < n`, `j`
being the number of squarings made in the first `k` iterations, for every `k`; the loop ends by its own test, after at
most `s ≤ 63` squarings. -/
def Obligations.RoundStaysWithinBounds : Prop :=
  ∀ (n d a : Dword) (s : Nat), OddCandidate n.toNat → d.toNat % 2 = 1 → n.toNat - 1 = d.toNat * 2 ^ s →
    let start : RoundRegs := { t := d, y := modPowCore a d n, prod := 0 }
    s ≤ 63 ∧ mrSquarings n d a ≤ s ∧ roundGoesOn n (roundLoop n 64 start) = false ∧
    ∀ k,
      let j := roundSquarings n k start
      let q := roundLoop n k start
      j ≤ s ∧ j ≤ k ∧ (roundGoesOn n q = true → j = k) ∧
      q.t.toNat = d.toNat * 2 ^ j ∧ q.t.toNat ≤ n.toNat - 1 ∧ q.y.toNat < n.toNat

/-- R118, a law the spec gives from general knowledge, to be proved of R111: a round on a prime passes for every witness
in `[1, n − 2]`. -/
def Obligations.PrimePassesEveryRound : Prop :=
  ∀ (n a : Dword), n.toNat.Prime → 3 ≤ n.toNat → 1 ≤ a.toNat → a.toNat ≤ n.toNat - 2 →
    mrRoundCore n (decomposeOdd n) a = .pass

/-- R117: no fast path gives 0 for a prime; the `n = 1` and even paths give 0 only for 1 and the even numbers but 2, and
the mod-6 path only for numbers above 3 that are neither 1 nor 5 modulo 6. -/
def Obligations.FastPathsNeverRejectAPrime : Prop :=
  ∀ (n : Dword),
    (n.toNat.Prime → fastPath n ≠ some false) ∧
    (fastPath n = some false ↔
      n.toNat = 1 ∨ (n.toNat % 2 = 0 ∧ n.toNat ≠ 2) ∨ (3 < n.toNat ∧ n.toNat % 6 ≠ 1 ∧ n.toNat % 6 ≠ 5))

/-- R118 and R114: PRIMETEST on a prime above 2 gives R = 1 and ROUNDS = 20 under every sequence of 20 in-range answers,
WIT being the last. It starts at the engine's first step, `r` cleared by the issue (log entry 6). The
count of 41 steps, one of the engine before the first request and one after each answer, is the model's (log entry 2). -/
def Obligations.PrimetestAcceptsEveryPrime : Prop :=
  ∀ (s : State) (vs : List Dword) (last : Dword), s.blk.seq = .exec → s.blk.op = 0x04 → s.blk.r = 0 →
    s.blk.sm.toNat.Prime → 2 < s.blk.sm.toNat → vs.length = 19 →
    (∀ v ∈ vs ++ [last], 1 ≤ v.toNat ∧ v.toNat ≤ s.blk.sm.toNat - 2) →
    ∃ t, Host.Core.run Sys2Proof.core 41 { s with turns := .engine :: serve (vs ++ [last]) ++ s.turns } = .next t ∧
      t.blk.result = 1 ∧ t.blk.rounds = 20 ∧ t.blk.witness = last ∧ t.blk.done = true ∧ t.blk.seq = .idle ∧
      t.blk.err = s.blk.err ∧ t.blk.ovr = s.blk.ovr ∧ t.blk.ie = s.blk.ie ∧
      t.turns = s.turns ∧ t.program = s.program ∧ t.reads = s.reads ∧ t.page = s.page

/-- R119: R = 1 does not prove a candidate prime: 25 is composite and MRROUND passes it with the witness 7. -/
def Obligations.CompositeCanPassARound : Prop :=
  ∃ (s t : State), s.blk.seq = .exec ∧ s.blk.sm = 25 ∧ s.blk.sa = 7 ∧ ¬s.blk.sm.toNat.Prime ∧
    exec .mrround s = .next t ∧ t.blk.result = 1 ∧ t.blk.done = true

/-- R130 then R92, R93: the two steps of MODPOW and MODMUL together. A CMD write on an idle engine with `M ≠ 0`, then the
engine's turn, leave the power (the product) of the operands modulo M in R, DONE set, and every other register the host
can read as it was. That one engine turn is the whole computation is the model's (log entry 2). -/
def Obligations.IssueThenEngineGivesTheResidue : Prop :=
  ∀ (s : State) (i : Instr), i = .modpow ∨ i = .modmul → s.blk.seq = .idle → s.blk.opM ≠ 0 →
    ∃ t u, step (s.hostWrites 0x0C (encodeWord i)) = .next t ∧ t.blk.busy = true ∧
      step (t.withTurn .engine) = .next u ∧
      (i = .modpow → u.blk.result.toNat = s.blk.opA.toNat ^ s.blk.opB.toNat % s.blk.opM.toNat) ∧
      (i = .modmul → u.blk.result.toNat = s.blk.opA.toNat * s.blk.opB.toNat % s.blk.opM.toNat) ∧
      u.blk.done = true ∧ u.blk.err = false ∧ u.blk.errcode = 0 ∧ u.blk.busy = false ∧
      u.blk.opA = s.blk.opA ∧ u.blk.opB = s.blk.opB ∧ u.blk.opM = s.blk.opM ∧ u.blk.rounds = s.blk.rounds ∧
      u.blk.witness = s.blk.witness ∧ u.blk.ie = s.blk.ie ∧ u.blk.ovr = s.blk.ovr ∧
      u.page = s.page ∧ u.program = s.program ∧ u.reads = s.reads ∧ u.turns = s.turns

/-! ### The window (R20 to R34, R51 to R58, R135 to R139) -/

/-- R58, with the map of R20: a read returns the register and changes no state of the block. ID is constant (R22), CTRL
reads IE alone (R23), CMD reads 0 (R30). One read of a `poll` reads STATUS like any other read, and leaves the `poll` to
be repeated exactly while BUSY, bit 0 of the value read, is 1 (R79); that it is one operation of the host's program is the
model's (log entry 20). -/
def Obligations.ReadReturnsTheRegister : Prop :=
  ∀ (s : State),
    let reads (off : Nat) (w : Word) := step (s.hostReads off) = .next { s with reads := s.reads ++ [(off, w)] }
    reads 0x00 0x504B4501 ∧ reads 0x04 (if s.blk.ie then 1 else 0) ∧ reads 0x08 s.blk.statusWord ∧ reads 0x0C 0 ∧
    reads 0x10 s.blk.aLo ∧ reads 0x14 s.blk.aHi ∧ reads 0x18 s.blk.bLo ∧ reads 0x1C s.blk.bHi ∧
    reads 0x20 s.blk.mLo ∧ reads 0x24 s.blk.mHi ∧ reads 0x28 s.blk.rLo ∧ reads 0x2C s.blk.rHi ∧
    reads 0x30 (s.blk.rounds.setWidth 32) ∧ reads 0x34 s.blk.witLo ∧ reads 0x38 s.blk.witHi ∧
    step (s.withHost .poll) = .next { s with
      reads := s.reads ++ [(0x08, s.blk.statusWord)]
      program := if s.blk.seq = .idle then s.program else .poll :: s.program }

/-- R54: a well-formed access to a reserved offset reads 0 and a write there is ignored, with no error response. -/
def Obligations.ReservedOffsetsReadZeroIgnoreWrites : Prop :=
  ∀ (s : State) (off : Nat) (v : Word), 0x3C ≤ off → off ≤ 0xFC → off % 4 = 0 →
    step (s.hostReads off) = .next { s with reads := s.reads ++ [(off, 0)] } ∧
    step (s.hostWrites off v) = .next s

/-- R24 to R29: every bit of the word a STATUS read returns. -/
def Obligations.StatusWordLayout : Prop :=
  ∀ (b : Block),
    (b.statusWord.getLsbD 0 = true ↔ b.seq ≠ .idle) ∧ b.statusWord.getLsbD 1 = b.done ∧
    b.statusWord.getLsbD 2 = b.err ∧ b.statusWord.getLsbD 3 = b.ovr ∧
    (b.statusWord.getLsbD 4 = true ↔ b.seq = .rngwait) ∧ b.statusWord.extractLsb' 5 3 = 0 ∧
    b.statusWord.extractLsb' 8 4 = b.errcode ∧ b.statusWord.extractLsb' 12 20 = 0

/-- R53: any access with a byte in the window that is not a 4-byte one at an offset of the window that is a multiple of 4
is malformed: the model faults it, the error response's data being 0. That a write's fault carries the data 0 is the
model's (log entry 7), and so is that an access which starts below the window and reaches into it, or runs over its end,
counts as one to the window (log entry 9). -/
def Obligations.MalformedAccessFaults : Prop :=
  ∀ (s : State) (addr : Nat), addr < s.base + 0x100 →
    (∀ size : Size, s.base < addr + size.bytes → ¬(size = .word ∧ s.base ≤ addr ∧ (addr - s.base) % 4 = 0) →
      step (s.withHost (.access (.read addr size))) = .fault (.malformedAccess 0)) ∧
    (∀ data : WriteData, s.base < addr + data.size.bytes →
      ¬(data.size = .word ∧ s.base ≤ addr ∧ (addr - s.base) % 4 = 0) →
      step (s.withHost (.access (.write addr data))) = .fault (.malformedAccess 0))

/-- The model's reading of R51, "Addresses outside the window are not decoded by the block" (log entry 8): an access no
byte of which lies in the window leaves the block, and all else, as it was. -/
def Obligations.OutsideAccessLeavesTheBlock : Prop :=
  ∀ (s : State) (addr : Nat),
    (∀ size : Size, addr + size.bytes ≤ s.base ∨ s.base + 0x100 ≤ addr →
      step (s.withHost (.access (.read addr size))) = .next s) ∧
    (∀ data : WriteData, addr + data.size.bytes ≤ s.base ∨ s.base + 0x100 ≤ addr →
      step (s.withHost (.access (.write addr data))) = .next s)

/-- R55: the byte at offset `off + k` is bits `[8k+7:8k]` of the register at `off`. -/
def Obligations.LittleEndianLanes : Prop :=
  ∀ (b : Block) (off k : Nat), off % 4 = 0 → k < 4 →
    windowByte b (off + k) = (readWindow b off).extractLsb' (8 * k) 8

/-- R56, R57, R176: the two words of an operand, written by two accesses in either order, at any time, end in the same
state `u`: the operand's two words are those of `x`, so that the operand is `x`, and nothing else has changed. -/
def Obligations.OperandHalvesInEitherOrder : Prop :=
  ∀ (s u : State) (x : Dword) (o : Nat),
    let lo := x.extractLsb' 0 32
    let hi := x.extractLsb' 32 32
    (o = 0x10 ∧ u = { s with blk := { s.blk with aLo := lo, aHi := hi } }) ∨
    (o = 0x18 ∧ u = { s with blk := { s.blk with bLo := lo, bHi := hi } }) ∨
    (o = 0x20 ∧ u = { s with blk := { s.blk with mLo := lo, mHi := hi } }) →
    (∃ t, step (s.hostWrites o lo) = .next t ∧ step (t.hostWrites (o + 4) hi) = .next u) ∧
    (∃ t, step (s.hostWrites (o + 4) hi) = .next t ∧ step (t.hostWrites o lo) = .next u) ∧
    (o = 0x10 → u.blk.opA = x) ∧ (o = 0x18 → u.blk.opB = x) ∧ (o = 0x20 → u.blk.opM = x)

/-- R135, R136: a CTRL write: SRST resets the block and wins; else IE is bit 0, and ABORT ends a running command with
Aborted (code 5) and has no effect on an idle engine. -/
def Obligations.CtrlWriteEffect : Prop :=
  ∀ (s : State) (v : Word),
    (v.getLsbD 2 = true → step (s.hostWrites 0x04 v) = .next { s with blk := Block.reset }) ∧
    (v.getLsbD 2 = false → v.getLsbD 1 = true → s.blk.seq ≠ .idle →
      step (s.hostWrites 0x04 v) = .next { s with blk := { s.blk with
        ie := v.getLsbD 0, err := true, errcode := 5, rngPending := false, seq := .idle } }) ∧
    (v.getLsbD 2 = false → v.getLsbD 1 = false ∨ s.blk.seq = .idle →
      step (s.hostWrites 0x04 v) = .next { s with blk := { s.blk with ie := v.getLsbD 0 } })

/-- R137, R170, R171: SRST and the `rst` input have the same effect, whatever `seq` is: the whole block is reset, and
nothing outside it. -/
def Obligations.SoftResetIsTheResetInput : Prop :=
  ∀ (s : State) (v : Word), v.getLsbD 2 = true →
    step (s.hostWrites 0x04 v) = step (s.withTurn .rst) ∧
    step (s.withTurn .rst) = .next { s with blk := State.reset.blk }

/-- R45: every piece of state after reset; R22: ID; R41: `irq` is 0. -/
def Obligations.ResetValues : Prop :=
  let b := State.reset.blk
  readReg b .id = 0x504B4501 ∧ b.ie = false ∧ b.statusWord = 0x00000000 ∧
  b.done = false ∧ b.err = false ∧ b.ovr = false ∧ b.errcode = 0 ∧
  b.opA = 0 ∧ b.opB = 0 ∧ b.opM = 0 ∧ b.result = 0 ∧ b.witness = 0 ∧ b.rounds = 0 ∧
  b.seq = .idle ∧ b.op = 0x00 ∧ b.sa = 0 ∧ b.sb = 0 ∧ b.sm = 0 ∧
  b.acc = 0 ∧ b.bp = 0 ∧ b.e = 0 ∧ b.n = 0 ∧ b.d = 0 ∧ b.t = 0 ∧ b.y = 0 ∧ b.a = 0 ∧ b.r = 0 ∧
  b.rngPending = false ∧ b.rngLo = 0 ∧ b.rngHi = 0 ∧ b.irq = false

/-- R138: a STATUS write clears exactly the flags written as 1, ERRCODE with ERR, and does nothing else. -/
def Obligations.StatusWriteClearsNamedFlags : Prop :=
  ∀ (s : State) (v : Word),
    step (s.hostWrites 0x08 v) = .next { s with blk := { s.blk with
      done := if v.getLsbD 1 then false else s.blk.done
      err := if v.getLsbD 2 then false else s.blk.err
      errcode := if v.getLsbD 2 then 0 else s.blk.errcode
      ovr := if v.getLsbD 3 then false else s.blk.ovr } }

/-- R139: a write to an operand word stores it at any time, the snapshot of a running command untouched; a write to a
read-only register or a reserved offset has no effect. -/
def Obligations.OtherWrites : Prop :=
  ∀ (s : State) (v : Word),
    step (s.hostWrites 0x10 v) = .next { s with blk := { s.blk with aLo := v } } ∧
    step (s.hostWrites 0x14 v) = .next { s with blk := { s.blk with aHi := v } } ∧
    step (s.hostWrites 0x18 v) = .next { s with blk := { s.blk with bLo := v } } ∧
    step (s.hostWrites 0x1C v) = .next { s with blk := { s.blk with bHi := v } } ∧
    step (s.hostWrites 0x20 v) = .next { s with blk := { s.blk with mLo := v } } ∧
    step (s.hostWrites 0x24 v) = .next { s with blk := { s.blk with mHi := v } } ∧
    step (s.hostWrites 0x00 v) = .next s ∧ step (s.hostWrites 0x28 v) = .next s ∧
    step (s.hostWrites 0x2C v) = .next s ∧ step (s.hostWrites 0x30 v) = .next s ∧
    step (s.hostWrites 0x34 v) = .next s ∧ step (s.hostWrites 0x38 v) = .next s ∧
    ∀ off, 0x3C ≤ off → off ≤ 0xFC → off % 4 = 0 → step (s.hostWrites off v) = .next s

/-! ### Interrupt (R41, R148, R149) -/

/-- R41, R148: `irq` is the level IE ∧ (DONE ∨ ERR); R149: OVR never raises it. -/
def Obligations.IrqIsALevelOfDoneAndErr : Prop :=
  ∀ (b : Block) (o : Bool),
    (b.irq = true ↔ b.ie = true ∧ (b.done = true ∨ b.err = true)) ∧ ({ b with ovr := o } : Block).irq = b.irq

/-- R149: `irq` falls when the host clears the pending flag, writes IE = 0, issues a command that goes to EXEC, or resets
the block. -/
def Obligations.IrqFallsWhenCleared : Prop :=
  ∀ (s t : State) (v : Word), StatusInv s.blk →
    (v.getLsbD 1 = true → s.blk.done = true → step (s.hostWrites 0x08 v) = .next t → t.blk.irq = false) ∧
    (v.getLsbD 2 = true → s.blk.err = true → step (s.hostWrites 0x08 v) = .next t → t.blk.irq = false) ∧
    (v.getLsbD 0 = false → step (s.hostWrites 0x04 v) = .next t → t.blk.irq = false) ∧
    (s.blk.seq = .idle → step (s.hostWrites 0x0C v) = .next t → t.blk.seq = .exec → t.blk.irq = false) ∧
    (step (s.withTurn .rst) = .next t → t.blk.irq = false)

/-! ### The whole machine -/

/-- The invariants hold at reset: those of R46, with R38's range of `r` and R39's `rng_pending`, and the checked operands
of a running command. -/
def Obligations.InvariantsHoldAtReset : Prop := BlockInv State.reset.blk

/-- R46, with R38's range of `r` and R39's `rng_pending`: every step keeps the invariants, from every state with them. -/
def Obligations.StepKeepsStatusInvariant : Prop :=
  ∀ (s t : State), StatusInv s.blk → step s = .next t → StatusInv t.blk

/-- A running command's operands passed the checks of its issue, and a PRIMETEST's rounds keep their candidate: every
step keeps this, from every state with both invariants. -/
def Obligations.StepKeepsCommandInvariant : Prop :=
  ∀ (s t : State), StatusInv s.blk → CommandInv s.blk → step s = .next t → CommandInv t.blk

/-- R35: the sequencer's transitions and what makes each: no other transition exists. In RNGWAIT only an answer, an ABORT
or a reset moves it (R116). -/
def Obligations.SequencerTransitions : Prop :=
  ∀ (s t : State), StatusInv s.blk → step s = .next t → t.blk.seq ≠ s.blk.seq →
    (s.blk.seq = .idle ∧ t.blk.seq = .exec ∧ ∃ v, WritesNext s 0x0C v) ∨
    (s.blk.seq = .exec ∧ t.blk.seq = .rngwait ∧ nextTurn s = .engine ∧ s.blk.op = 0x04) ∨
    (s.blk.seq = .rngwait ∧ t.blk.seq = .exec ∧ ∃ v, nextTurn s = .random v) ∨
    (s.blk.seq = .exec ∧ t.blk.seq = .idle ∧ nextTurn s = .engine) ∨
    (s.blk.seq ≠ .idle ∧ t.blk.seq = .idle ∧ ∃ v, WritesNext s 0x04 v ∧ v.getLsbD 1 = true) ∨
    (s.blk.seq ≠ .idle ∧ t.blk.seq = .idle ∧ ResetsNext s)

/-- R34, R61: R, ROUNDS and WIT change only in the engine's step that terminates a command in success, with DONE and
`seq` in the same step, or by a reset. -/
def Obligations.ResultsChangeOnlyAtTermination : Prop :=
  ∀ (s t : State), step s = .next t →
    (t.blk.result = s.blk.result ∧ t.blk.rounds = s.blk.rounds ∧ t.blk.witness = s.blk.witness) ∨
    (nextTurn s = .engine ∧ s.blk.seq = .exec ∧ t.blk.seq = .idle ∧ t.blk.done = true) ∨
    (ResetsNext s ∧ t.blk = State.reset.blk)

/-- No command writes an operand register (R31 to R33, R43), IE, which only a CTRL write and reset change (R135, R171), or
OVR, which issue does not touch (R27, R130); nor anything outside the block. That `exec` answers a next state in every
state is the model's totality: in RNGWAIT, where the engine has no step (log entry 13), in EXEC with an opcode or a
snapshot that no issue leaves, a NOP or a modulus of 0 (log entries 12 and 14). -/
def Obligations.CommandsWriteNoOperand : Prop :=
  ∀ (i : Instr) (s : State), ∃ t, exec i s = .next t ∧
    t.blk.aLo = s.blk.aLo ∧ t.blk.aHi = s.blk.aHi ∧ t.blk.bLo = s.blk.bLo ∧ t.blk.bHi = s.blk.bHi ∧
    t.blk.mLo = s.blk.mLo ∧ t.blk.mHi = s.blk.mHi ∧ t.blk.ie = s.blk.ie ∧ t.blk.ovr = s.blk.ovr ∧
    t.page = s.page ∧ t.program = s.program ∧ t.reads = s.reads ∧ t.turns = s.turns

/-- R27: OVR rises only by a CMD write while the engine is busy, and falls only by a STATUS write of 1 to bit 3 or by a
reset. -/
def Obligations.OverrunRisesAndFallsOnlyAsStated : Prop :=
  ∀ (s t : State), step s = .next t →
    (s.blk.ovr = false → t.blk.ovr = true → s.blk.seq ≠ .idle ∧ ∃ v, WritesNext s 0x0C v) ∧
    (s.blk.ovr = true → t.blk.ovr = false →
      ResetsNext s ∨ ∃ v, WritesNext s 0x08 v ∧ v.getLsbD 3 = true)

/-- R36, R139: while a command runs, a write to an operand register and the engine's step give the same state in either
order: the running command reads only its snapshot. -/
def Obligations.OperandWriteCannotDisturbTheCommand : Prop :=
  ∀ (s : State) (v : Word) (off : Nat), 0x10 ≤ off → off ≤ 0x24 → off % 4 = 0 → s.blk.seq = .exec →
    (∃ i, decodeOpcode s.blk.op = some i) →
    ∃ t t' u, step (s.hostWrites off v) = .next t ∧ step (t.withTurn .engine) = .next u ∧
      step (s.withTurn .engine) = .next t' ∧ step (t'.hostWrites off v) = .next u

/-- R147: an ABORT (here with IE kept) and the termination of a command are ordered. ABORT first: the command ends with
Aborted, results unchanged, and the engine has no step left. Termination first: the ABORT finds the engine IDLE and has
no effect. -/
def Obligations.AbortAndTerminationAreOrdered : Prop :=
  ∀ (s : State) (v : Word), s.blk.seq = .exec → v.getLsbD 0 = s.blk.ie → v.getLsbD 1 = true → v.getLsbD 2 = false →
    (∃ t, step (s.hostWrites 0x04 v) = .next t ∧ step (t.withTurn .engine) = .next t ∧
      t = { s with blk := { s.blk with err := true, errcode := 5, rngPending := false, seq := .idle } }) ∧
    (∀ t, step (s.withTurn .engine) = .next t → t.blk.seq = .idle → step (t.hostWrites 0x04 v) = .next t)

/-- R133, R181: under the invariants, one engine turn in EXEC ends in a termination, DONE or ERR set and not both, or, for
a PRIMETEST only, in a witness request; it never faults. That one turn is enough is the model's (log entry 2). -/
def Obligations.EngineTurnTerminatesOrRequests : Prop :=
  ∀ (s : State), StatusInv s.blk → CommandInv s.blk → s.blk.seq = .exec →
    ∃ t, step (s.withTurn .engine) = .next t ∧
      ((t.blk.seq = .idle ∧ (t.blk.done = true ↔ t.blk.err = false)) ∨
       (t.blk.seq = .rngwait ∧ s.blk.op = 0x04 ∧ t.blk.rngPending = true ∧ t.blk.rngLo.toNat = 1 ∧
        t.blk.rngHi.toNat = s.blk.sm.toNat - 2))

/-- R145, R146: errors are precise. A step after which ERR is set, with a code other than before or by a CMD write (which
may end at issue with the very code that stood there), leaves every register of the window but STATUS as it was, IE apart
where the step is the host's CTRL write; and the engine is IDLE with no request. -/
def Obligations.ErrorsArePrecise : Prop :=
  ∀ (s t : State), StatusInv s.blk → step s = .next t → t.blk.err = true →
    (t.blk.errcode ≠ s.blk.errcode ∨ ∃ v, WritesNext s 0x0C v) →
    t.blk.opA = s.blk.opA ∧ t.blk.opB = s.blk.opB ∧ t.blk.opM = s.blk.opM ∧ t.blk.result = s.blk.result ∧
    t.blk.rounds = s.blk.rounds ∧ t.blk.witness = s.blk.witness ∧ t.blk.ovr = s.blk.ovr ∧ t.blk.done = false ∧
    (t.blk.ie = s.blk.ie ∨ ∃ v, WritesNext s 0x04 v) ∧ t.blk.seq = .idle ∧ t.blk.rngPending = false

/-- R142: which command can end with which code: a step of command `i` that leaves ERR set, where it was clear or the
step issued it, leaves a code of the command's row; a NOP leaves none. -/
def Obligations.CommandsRaiseOnlyTheirErrors : Prop :=
  ∀ (i : Instr) (s t : State), s.blk.seq = .idle ∨ (s.blk.seq = .exec ∧ s.blk.err = false) →
    exec i s = .next t → t.blk.err = true →
    (i = .modpow ∧ t.blk.errcode = 1) ∨ (i = .modmul ∧ t.blk.errcode = 1) ∨
    (i = .mrround ∧ (t.blk.errcode = 3 ∨ t.blk.errcode = 4)) ∨ (i = .primetest ∧ t.blk.errcode = 6)

/-- R156: an access by a second bus master is refused. -/
def Obligations.SecondBusMasterIsRefused : Prop :=
  ∀ (s : State), step (s.withTurn .otherMaster) = .refused .secondBusMaster

/-- R37, R38, R45: stale working registers are unobservable. Two machines that agree on all the host can read, on the
random-source request and on what the running command still reads, and are given the same turns and host program, take
the same step: the same fault or refusal, or next states that agree again, with the same values read by the host. -/
def Obligations.HiddenRegistersAreUnobservable : Prop :=
  ∀ (s s' : State), StatusInv s.blk → SameToHost s.blk s'.blk → s.page = s'.page → s.program = s'.program →
    s.reads = s'.reads → s.turns = s'.turns →
    (∀ t, step s = .next t → ∃ t', step s' = .next t' ∧ SameToHost t.blk t'.blk ∧ t.page = t'.page ∧
      t.program = t'.program ∧ t.reads = t'.reads ∧ t.turns = t'.turns) ∧
    (∀ f, step s = .fault f → step s' = .fault f) ∧ (∀ f, step s = .refused f → step s' = .refused f)
end

