-- ==== Sys2Proof/Config.lean ====
section
/-! DEFINITION. What the platform fixes and the block does not (R148, table of OPEN parameters in 92_eei_decisions.md).

The OPEN parameter `PKE_BASE` is the field `page` of `Machine.State`, so that every statement about a state holds for
every base (log entry 3). The OPEN parameter `RngLaw` is not modelled: what the random source answers is an arbitrary
64-bit input of each of its turns (log entry 11). -/

namespace Sys2Proof

/-- The platform's number for the `irq` output (R148): a free value, since no rule of the block reads it. -/
opaque Config.irqNumber : Nat

end Sys2Proof
end

