-- ==== Sys2Proof/Laws/Datapath.lean ====
section
/-! SUPPORT. What the datapath functions compute, in terms of natural numbers (R90, R91, R94, R110 to R112). -/

namespace Sys2Proof.Machine

theorem toNat_ofNat_mod (x : Nat) {m : Dword} (hm : 0 < m.toNat) :
    (BitVec.ofNat 64 (x % m.toNat)).toNat = x % m.toNat := by
  have h := Nat.mod_lt x hm
  have := m.isLt
  rw [BitVec.toNat_ofNat, Nat.mod_eq_of_lt (by omega)]

theorem modMulCore_toNat (a b : Dword) {m : Dword} (hm : 0 < m.toNat) :
    (modMulCore a b m).toNat = a.toNat * b.toNat % m.toNat := toNat_ofNat_mod _ hm

theorem modMulCore_lt (a b : Dword) {m : Dword} (hm : 0 < m.toNat) : (modMulCore a b m).toNat < m.toNat := by
  rw [modMulCore_toNat a b hm]
  exact Nat.mod_lt _ hm

/-- Bit 0 as parity. -/
theorem getLsbD_zero_eq (x : Dword) : x.getLsbD 0 = decide (x.toNat % 2 = 1) := by
  simp [BitVec.getLsbD, Nat.testBit_zero]

theorem toNat_shiftRight_one (x : Dword) : (x >>> 1).toNat = x.toNat / 2 := by
  simp [Nat.shiftRight_eq_div_pow]

/-- The invariant of square-and-multiply, `acc · bp^e`, over the whole loop (R94). -/
theorem powLoop_acc {m : Dword} (hm : 0 < m.toNat) : ∀ (k : Nat) (p : PowRegs), p.e.toNat < 2 ^ k →
    p.acc.toNat < m.toNat →
    (powLoop m k p).acc.toNat = p.acc.toNat * p.bp.toNat ^ p.e.toNat % m.toNat ∧ (powLoop m k p).e = 0
  | 0, p, he, ha => by
    have h0 : p.e.toNat = 0 := by simpa using he
    have h1 : p.e = 0 := BitVec.eq_of_toNat_eq (by simpa using h0)
    simp [powLoop, h1, Nat.mod_eq_of_lt ha]
  | k + 1, p, he, ha => by
    by_cases h1 : p.e = 0
    · simp [powLoop, h1, Nat.mod_eq_of_lt ha]
    · have hs : (powStep m p).e.toNat < 2 ^ k := by
        simp only [powStep, toNat_shiftRight_one]
        rw [Nat.pow_succ] at he
        omega
      have hacc : (powStep m p).acc.toNat < m.toNat := by
        simp only [powStep]
        split
        · exact modMulCore_lt _ _ hm
        · exact ha
      obtain ⟨ih, ihe⟩ := powLoop_acc hm k (powStep m p) hs hacc
      have hrun : powLoop m (k + 1) p = powLoop m k (powStep m p) := if_neg h1
      refine ⟨?_, by rw [hrun, ihe]⟩
      rw [hrun, ih]
      have hbp : (powStep m p).bp.toNat = p.bp.toNat * p.bp.toNat % m.toNat := modMulCore_toNat _ _ hm
      have hee : (powStep m p).e.toNat = p.e.toNat / 2 := toNat_shiftRight_one _
      have hsq : (p.bp.toNat * p.bp.toNat) ^ (p.e.toNat / 2) = p.bp.toNat ^ (2 * (p.e.toNat / 2)) := by
        rw [← pow_two, ← pow_mul]
      rw [hbp, hee, Nat.mul_mod, ← Nat.pow_mod, ← Nat.mul_mod, hsq]
      simp only [powStep, getLsbD_zero_eq]
      split
      · rename_i hodd
        have hodd : p.e.toNat % 2 = 1 := by simpa using hodd
        have he2 : p.e.toNat = 2 * (p.e.toNat / 2) + 1 := by omega
        rw [modMulCore_toNat _ _ hm, Nat.mod_mul_mod]
        conv_rhs => rw [he2, pow_succ]
        ring_nf
      · rename_i hev
        have hev : ¬p.e.toNat % 2 = 1 := by simpa using hev
        have he2 : p.e.toNat = 2 * (p.e.toNat / 2) := by omega
        conv_rhs => rw [he2]

/-- The registers after `ModPowCore`, whatever the product register held (R91, R94). -/
theorem powRun_spec (b e : Dword) {m : Dword} (prod : BitVec 128) (hm : 0 < m.toNat) :
    (powRun b e m prod).acc.toNat = b.toNat ^ e.toNat % m.toNat ∧ (powRun b e m prod).e = 0 := by
  have h1 : (powStart b e m prod).acc.toNat = 1 % m.toNat := toNat_ofNat_mod 1 hm
  obtain ⟨h, h0⟩ := powLoop_acc hm 64 (powStart b e m prod) e.isLt (by rw [h1]; exact Nat.mod_lt _ hm)
  refine ⟨?_, h0⟩
  unfold powRun
  rw [h, h1, Nat.mod_mul_mod, one_mul]
  rfl

theorem powRun_acc_lt (b e : Dword) {m : Dword} (prod : BitVec 128) (hm : 0 < m.toNat) :
    (powRun b e m prod).acc.toNat < m.toNat := by
  rw [(powRun_spec b e prod hm).1]
  exact Nat.mod_lt _ hm

/-- The product register is only written, so the loop's other registers do not depend on it. -/
theorem powLoop_prod (m : Dword) : ∀ (k : Nat) (p q : PowRegs), p.acc = q.acc → p.bp = q.bp → p.e = q.e →
    (powLoop m k p).acc = (powLoop m k q).acc ∧ (powLoop m k p).bp = (powLoop m k q).bp ∧
    (powLoop m k p).e = (powLoop m k q).e
  | 0, _, _, ha, hb, he => ⟨ha, hb, he⟩
  | k + 1, p, q, ha, hb, he => by
    simp only [powLoop, he]
    split
    · exact ⟨ha, hb, he⟩
    · exact powLoop_prod m k _ _ (by simp [powStep, ha, hb, he]) (by simp [powStep, hb]) (by simp [powStep, he])

theorem powRun_acc_prod (b e m : Dword) (prod prod' : BitVec 128) :
    (powRun b e m prod).acc = (powRun b e m prod').acc :=
  (powLoop_prod m 64 (powStart b e m prod) (powStart b e m prod') rfl rfl rfl).1

/-- The same of the witness loop. -/
theorem roundLoop_prod (n : Dword) : ∀ (k : Nat) (p q : RoundRegs), p.t = q.t → p.y = q.y →
    (roundLoop n k p).t = (roundLoop n k q).t ∧ (roundLoop n k p).y = (roundLoop n k q).y
  | 0, _, _, ht, hy => ⟨ht, hy⟩
  | k + 1, p, q, ht, hy => by
    have hg : roundGoesOn n p = roundGoesOn n q := by simp [roundGoesOn, ht, hy]
    simp only [roundLoop, hg]
    split
    · exact roundLoop_prod n k _ _ (by simp [roundStep, ht]) (by simp [roundStep, hy])
    · exact ⟨ht, hy⟩

/-- The halving loop finds the odd part of a nonzero number (R110). -/
theorem oddLoop_spec : ∀ (k : Nat) (d : Dword), 0 < d.toNat → d.toNat < 2 ^ k →
    (oddLoop k d).toNat % 2 = 1 ∧ ∃ j, d.toNat = (oddLoop k d).toNat * 2 ^ j
  | 0, d, h0, hk => by simp at hk; omega
  | k + 1, d, h0, hk => by
    simp only [oddLoop, getLsbD_zero_eq]
    split
    · rename_i h
      exact ⟨by simpa using h, 0, by simp⟩
    · rename_i h
      have h : ¬d.toNat % 2 = 1 := by simpa using h
      have hd : (d >>> 1).toNat = d.toNat / 2 := toNat_shiftRight_one d
      rw [Nat.pow_succ] at hk
      obtain ⟨hodd, j, hj⟩ := oddLoop_spec k (d >>> 1) (by omega) (by omega)
      refine ⟨hodd, j + 1, ?_⟩
      rw [pow_succ, ← mul_assoc, ← hj, hd]
      omega

/-- While the witness loop goes on, every iteration made a squaring (R112). -/
theorem roundSquarings_of_goesOn (n : Dword) : ∀ (k : Nat) (q : RoundRegs), roundGoesOn n (roundLoop n k q) = true →
    roundSquarings n k q = k
  | 0, _, _ => rfl
  | k + 1, q, h => by
    simp only [roundLoop] at h
    simp only [roundSquarings]
    split at h
    · rename_i hg
      rw [if_pos hg, roundSquarings_of_goesOn n k _ h]
      omega
    · rename_i hg
      exact absurd h hg

/-- What the witness loop keeps: after each squaring `t` doubles and `y` is squared (R112). -/
structure RoundAt (n d a : Nat) (j : Nat) (q : RoundRegs) : Prop where
  exponent : q.t.toNat = d * 2 ^ j
  value : q.y.toNat = a ^ (d * 2 ^ j) % n

theorem sub_one_toNat {n : Dword} (h : 1 ≤ n.toNat) : (n - 1).toNat = n.toNat - 1 := by
  have := n.isLt
  rw [BitVec.toNat_sub]
  simp
  omega

theorem toNat_shiftLeft_one {t : Dword} (h : 2 * t.toNat < 2 ^ 64) : (t <<< 1).toNat = 2 * t.toNat := by
  rw [BitVec.toNat_shiftLeft, Nat.shiftLeft_eq, Nat.mod_eq_of_lt (by omega)]
  omega

/-- The witness loop stops after some `j ≤ s` squarings, by its own test if it had the fuel, and none of the earlier
values ended it (R111, R112). -/
theorem roundLoop_spec {n : Dword} {d a s : Nat} (hn : 3 ≤ n.toNat) (hs : n.toNat - 1 = d * 2 ^ s) :
    ∀ (k i : Nat) (q : RoundRegs), i ≤ s → RoundAt n.toNat d a i q →
    ∃ j, i ≤ j ∧ j ≤ s ∧ j ≤ i + k ∧ RoundAt n.toNat d a j (roundLoop n k q) ∧
      roundSquarings n k q = j - i ∧ (s ≤ i + k → roundGoesOn n (roundLoop n k q) = false) ∧
      ∀ l, i ≤ l → l < j → a ^ (d * 2 ^ l) % n.toNat ≠ 1 ∧ a ^ (d * 2 ^ l) % n.toNat ≠ n.toNat - 1
  | 0, i, q, hi, h => by
    refine ⟨i, le_refl _, hi, by omega, h, by simp [roundSquarings], ?_, by omega⟩
    intro hk
    have hi' : i = s := by omega
    have ht : q.t = n - 1 := BitVec.eq_of_toNat_eq (by
      rw [h.exponent, sub_one_toNat (by omega), hs, hi'])
    simp [roundLoop, roundGoesOn, ht]
  | k + 1, i, q, hi, h => by
    by_cases hgo : roundGoesOn n q = true
    · have hparts : q.t ≠ n - 1 ∧ q.y ≠ 1 ∧ q.y ≠ n - 1 := by
        simpa [roundGoesOn, and_assoc] using hgo
      have hlt : i < s := by
        rcases Nat.lt_or_ge i s with h' | h'
        · exact h'
        · exfalso
          have : i = s := by omega
          exact hparts.1 (BitVec.eq_of_toNat_eq (by
            rw [h.exponent, sub_one_toNat (by omega), hs, this]))
      have hle : d * 2 ^ (i + 1) ≤ d * 2 ^ s := Nat.mul_le_mul_left d (Nat.pow_le_pow_right (by omega) hlt)
      have hpow : d * 2 ^ (i + 1) = 2 * (d * 2 ^ i) := by rw [pow_succ]; ring
      have hnlt := n.isLt
      have hstep : RoundAt n.toNat d a (i + 1) (roundStep n q) := by
        constructor
        · simp only [roundStep]
          rw [toNat_shiftLeft_one (by rw [h.exponent]; omega), h.exponent, hpow]
        · simp only [roundStep]
          rw [modMulCore_toNat _ _ (by omega), h.value, ← Nat.mul_mod, hpow, ← pow_add]
          congr 2
          omega
      obtain ⟨j, h1, h2, h3, h4, h5, h6, h7⟩ := roundLoop_spec hn hs k (i + 1) (roundStep n q) hlt hstep
      have hrun : roundLoop n (k + 1) q = roundLoop n k (roundStep n q) := by simp [roundLoop, hgo]
      refine ⟨j, by omega, h2, by omega, by rw [hrun]; exact h4, ?_, ?_, ?_⟩
      · simp only [roundSquarings, hgo, if_true, h5]
        omega
      · intro hk
        rw [hrun]
        exact h6 (by omega)
      · intro l hl hlj
        rcases Nat.lt_or_ge i l with h' | h'
        · exact h7 l h' hlj
        · have hli : l = i := by omega
          subst hli
          rw [← h.value]
          refine ⟨fun hc => hparts.2.1 (BitVec.eq_of_toNat_eq (by simpa using hc)), fun hc => hparts.2.2 ?_⟩
          exact BitVec.eq_of_toNat_eq (by rw [hc, sub_one_toNat (by omega)])
    · have hgo : roundGoesOn n q = false := by simpa using hgo
      refine ⟨i, le_refl _, hi, by omega, by simpa [roundLoop, hgo] using h, by simp [roundSquarings, hgo],
        by simp [roundLoop, hgo], by omega⟩

end Sys2Proof.Machine
end

