-- ==== Sys2Proof/Laws/Primality.lean ====
section
/-! SUPPORT. Odd parts, fast paths, and the verdict of a round in terms of powers (R110, R111, R114). -/

namespace Sys2Proof.Machine

/-- The odd part and its exponent are unique. -/
theorem oddPart_unique {d k d' k' : Nat} (hd : d % 2 = 1) (hd' : d' % 2 = 1) (h : d * 2 ^ k = d' * 2 ^ k') :
    d = d' ∧ k = k' := by
  rcases Nat.lt_trichotomy k k' with hk | hk | hk
  · obtain ⟨c, rfl⟩ := Nat.exists_eq_add_of_lt hk
    have h2 : d * 2 ^ k = (2 * (d' * 2 ^ c)) * 2 ^ k := by rw [h]; ring
    have := Nat.eq_of_mul_eq_mul_right (Nat.pow_pos (by omega)) h2
    omega
  · subst hk
    exact ⟨Nat.eq_of_mul_eq_mul_right (Nat.pow_pos (by omega)) h, rfl⟩
  · obtain ⟨c, rfl⟩ := Nat.exists_eq_add_of_lt hk
    have h2 : (2 * (d * 2 ^ c)) * 2 ^ k' = d' * 2 ^ k' := by rw [← h]; ring
    have := Nat.eq_of_mul_eq_mul_right (Nat.pow_pos (by omega)) h2
    omega

theorem strongPass_iff {n d k : Nat} (a : Nat) (hd : d % 2 = 1) (hn : n - 1 = d * 2 ^ k) :
    StrongPass n a ↔ (a ^ d % n = 1 ∨ ∃ j, j ≤ k ∧ a ^ (d * 2 ^ j) % n = n - 1) := by
  constructor
  · rintro ⟨d', k', hd', hn', h⟩
    obtain ⟨rfl, rfl⟩ := oddPart_unique hd hd' (hn.symm.trans hn')
    exact h
  · exact fun h => ⟨d, k, hd, hn, h⟩

theorem decomposeOdd_oddPart {n : Dword} (h : OddCandidate n.toNat) : OddPart n.toNat (decomposeOdd n).toNat := by
  obtain ⟨hodd, h3⟩ := h
  have hs := sub_one_toNat (n := n) (by omega)
  obtain ⟨h1, j, hj⟩ := oddLoop_spec 64 (n - 1) (by omega) (n - 1).isLt
  refine ⟨h1, j, ?_, by rw [← hs, hj]; rfl⟩
  rcases Nat.eq_zero_or_pos j with rfl | h'
  · rw [hs] at hj; simp only [pow_zero, mul_one] at hj; omega
  · exact h'

theorem exponent_le {n : Dword} {d s : Nat} (hd : d % 2 = 1) (hs : n.toNat - 1 = d * 2 ^ s) : s ≤ 63 := by
  by_contra hc
  have h1 : 2 ^ 64 ≤ 2 ^ s := Nat.pow_le_pow_right (by omega) (by omega)
  have h2 : 1 * 2 ^ s ≤ d * 2 ^ s := Nat.mul_le_mul_right _ (by omega)
  have := n.isLt
  omega

/-- The registers at the start of the witness loop, `t = d` and `y = a^d mod n` (R111). -/
theorem roundAt_start {n d a : Dword} (prod : BitVec 128) (hn : 3 ≤ n.toNat) :
    RoundAt n.toNat d.toNat a.toNat 0
      { t := d, y := (powRun a d n prod).acc, prod := (powRun a d n prod).prod } :=
  ⟨by simp, by simpa using (powRun_spec a d prod (by omega)).1⟩

/-- A round passes exactly when its witness is a strong pass, whatever the product register held (R111). -/
theorem roundVerdict_pass_iff {n d : Dword} (a : Dword) (prod : BitVec 128) (hn : OddCandidate n.toNat)
    (hd : OddPart n.toNat d.toNat) :
    roundVerdict n (roundRun n d (powRun a d n prod)) = .pass ↔ StrongPass n.toNat a.toNat := by
  obtain ⟨hodd, h3⟩ := hn
  obtain ⟨hd1, s, hs1, hs⟩ := hd
  rw [strongPass_iff a.toNat hd1 hs]
  obtain ⟨j, -, hj, -, hat, -, hend, hne⟩ := roundLoop_spec h3 hs 64 0 _ (Nat.zero_le _)
    (roundAt_start (a := a) prod h3)
  have hend := hend (by have := exponent_le hd1 hs; omega)
  unfold roundRun
  generalize hq : roundLoop n 64 _ = q at hat hend
  have hnlt := n.isLt
  have hsub := sub_one_toNat (n := n) (by omega)
  have hyn : q.y = n - 1 ↔ a.toNat ^ (d.toNat * 2 ^ j) % n.toNat = n.toNat - 1 := by
    rw [← hat.value, ← hsub, BitVec.toNat_inj]
  have hy1 : q.y = 1 ↔ a.toNat ^ (d.toNat * 2 ^ j) % n.toNat = 1 := by
    rw [← hat.value, ← BitVec.toNat_inj]; rfl
  have htp : q.t.toNat % 2 = 1 ↔ j = 0 := by
    rw [hat.exponent]
    rcases j with _ | j
    · simp [hd1]
    · simp [pow_succ, ← mul_assoc]
  have hpass : roundVerdict n q = .pass ↔ q.y = n - 1 ∨ j = 0 := by
    rw [← htp]
    simp only [roundVerdict, getLsbD_zero_eq]
    by_cases h1 : q.y = n - 1 <;> by_cases h2 : q.t.toNat % 2 = 1 <;> simp [h1, h2]
  rw [hpass]
  have htn : q.t = n - 1 → j = s := fun h => by
    have := hat.exponent
    rw [h, hsub, hs] at this
    exact (oddPart_unique hd1 hd1 this).2.symm
  have hstop : q.t = n - 1 ∨ q.y = 1 ∨ q.y = n - 1 := by
    by_contra hc
    push Not at hc
    rw [roundGoesOn, decide_eq_true hc.1, decide_eq_true hc.2.1, decide_eq_true hc.2.2] at hend
    exact absurd hend (by decide)
  constructor
  · rintro (h | rfl)
    · exact .inr ⟨j, hj, hyn.1 h⟩
    · rcases hstop with h | h | h
      · exact absurd (htn h) (by omega)
      · exact .inl (by simpa using hy1.1 h)
      · exact .inr ⟨0, hj, hyn.1 h⟩
  · rintro (h | ⟨l, hl, h⟩)
    · right
      by_contra hc
      exact (hne 0 (le_refl _) (by omega)).1 (by simpa using h)
    · rcases Nat.lt_trichotomy l j with hlt | rfl | hgt
      · exact absurd h (hne l (Nat.zero_le _) hlt).2
      · exact .inl (hyn.2 h)
      · rcases hstop with ht | ht | ht
        · exact absurd (htn ht) (by omega)
        · exfalso
          obtain ⟨c, rfl⟩ := Nat.exists_eq_add_of_lt hgt
          have hp : d.toNat * 2 ^ (j + c + 1) = d.toNat * 2 ^ j * 2 ^ (c + 1) := by ring
          rw [hp, pow_mul, Nat.pow_mod, hy1.1 ht, one_pow, Nat.mod_eq_of_lt (by omega)] at h
          omega
        · exact .inl ht

/-- The fast paths decide exactly the candidates that do not reach the rounds (R114). -/
theorem fastPath_eq (n : Dword) :
    fastPath n = if n.toNat = 2 then some true
      else if n.toNat = 1 ∨ n.toNat % 2 = 0 ∨ (3 < n.toNat ∧ n.toNat % 6 ≠ 1 ∧ n.toNat % 6 ≠ 5) then some false
      else none := by
  have h2 : n = 2 ↔ n.toNat = 2 := by rw [← BitVec.toNat_inj]; rfl
  have h1 : n = 1 ↔ n.toNat = 1 := by rw [← BitVec.toNat_inj]; rfl
  simp only [fastPath, getLsbD_zero_eq, h2, h1]
  by_cases a : n.toNat = 2 <;> by_cases b : n.toNat = 1 <;> by_cases c : n.toNat % 2 = 1 <;> simp [a, b, c]

theorem candidateInvalid_eq (n : Dword) : candidateInvalid n = true ↔ n.toNat % 2 = 0 ∨ n.toNat < 3 := by
  rw [candidateInvalid, getLsbD_zero_eq]
  by_cases h : n.toNat % 2 = 1
  · simp [h]
  · exact ⟨fun _ => .inl (by omega), fun _ => by simp [h]⟩

theorem witnessOutside_eq (n a : Dword) :
    witnessOutside n a = true ↔ a.toNat < 1 ∨ n.toNat - 2 < a.toNat := by
  simp [witnessOutside]

end Sys2Proof.Machine
end

