-- ==== Sys2Proof/Laws/Decode.lean ====
section
/-! SUPPORT. The command word's fields, its bytes, and when the decoder answers a command (R55, R70 to R72). -/

namespace Sys2Proof

/-- The opcode map gives each command its own opcode (R71). -/
theorem decodeOpcode_eq {opc : BitVec 8} {i : Instr} (h : decodeOpcode opc = some i) : opc = opcode i := by
  revert h
  revert opc
  cases i <;> decide

/-- A word is its two fields (R70). -/
theorem field_split (v : Word) : v.toNat = (rsvdField v).toNat * 256 + (opcField v).toNat := by
  simp only [rsvdField, opcField, BitVec.extractLsb'_toNat, Nat.shiftRight_eq_div_pow]
  have := v.isLt
  omega

/-- The decoder selects a command exactly at its full word (R71). -/
theorem decodeWord_iff (v : Word) (i : Instr) : decodeWord v = .command i ↔ v = encodeWord i := by
  constructor
  · intro h
    unfold decodeWord at h
    split at h
    · cases h
    · rename_i h0
      push Not at h0
      split at h
      · rename_i hj
        cases h
        have := decodeOpcode_eq hj
        apply BitVec.eq_of_toNat_eq
        rw [field_split v, h0, this]
        cases i <;> rfl
      · cases h
  · rintro rfl; cases i <;> rfl

/-- When the decoder answers no command (R72). -/
theorem decodeWord_reject (v : Word) :
    (∃ why, decodeWord v = .reject why) ↔ (rsvdField v ≠ 0 ∨ 5 ≤ (opcField v).toNat) := by
  unfold decodeWord
  split
  · rename_i h; simpa using Or.inl h
  · rename_i h
    push Not at h
    simp only [h, ne_eq, not_true, false_or]
    have hn : decodeOpcode (opcField v) = none ↔ 5 ≤ (opcField v).toNat := by
      generalize opcField v = o
      revert o
      decide
    rw [← hn]
    cases h : decodeOpcode (opcField v) <;> simp

theorem or256 (a : Nat) {b : Nat} (h : b < 256) : a * 256 ||| b = a * 256 + b := by
  have := Nat.shiftLeft_add_eq_or_of_lt (i := 8) (b := b) (by simpa using h) a
  rw [Nat.shiftLeft_eq] at this
  simpa using this.symm

/-- Four bytes as one number (R55). -/
theorem word4 (b0 b1 b2 b3 : Byte) :
    (b3 ++ b2 ++ b1 ++ b0 : BitVec 32).toNat =
      ((b3.toNat * 256 + b2.toNat) * 256 + b1.toNat) * 256 + b0.toNat := by
  simp only [BitVec.toNat_append, Nat.shiftLeft_eq]
  rw [show (2 : Nat) ^ 8 = 256 from rfl, or256 _ b2.isLt, or256 _ b1.isLt, or256 _ b0.isLt]

/-- The lanes of a word make the word (R55). -/
theorem wordOfBytes_bytes (v : Word) : wordOfBytes (bytesOfWord v) = some v := by
  simp only [wordOfBytes, bytesOfWord, Option.some.injEq]
  apply BitVec.eq_of_toNat_eq
  refine (word4 _ _ _ _).trans ?_
  simp only [BitVec.extractLsb'_toNat, Nat.shiftRight_eq_div_pow]
  have := v.isLt
  omega

theorem bytesOfWord_word {bs : List Byte} {v : Word} (h : wordOfBytes bs = some v) : bs = bytesOfWord v := by
  unfold wordOfBytes at h
  split at h
  · rename_i b0 b1 b2 b3
    have h := congrArg BitVec.toNat (Option.some.inj h)
    have h := (word4 b0 b1 b2 b3).symm.trans h
    have := b0.isLt; have := b1.isLt; have := b2.isLt; have := b3.isLt
    simp only [bytesOfWord, List.cons.injEq, and_true]
    refine ⟨?_, ?_, ?_, ?_⟩ <;> apply BitVec.eq_of_toNat_eq <;>
      simp only [BitVec.extractLsb'_toNat, Nat.shiftRight_eq_div_pow] <;> omega
  · cases h

end Sys2Proof
end

