-- ==== Sys2Proof/Laws/State.lean ====
section
/-! SUPPORT. The fields of the state after each named update: what is written, and what is left. -/

namespace Sys2Proof.Machine

/-! ### Updates of the whole state -/

@[simp] theorem mapBlock_blk (s : State) (f : Block → Block) : (s.mapBlock f).blk = f s.blk := rfl
@[simp] theorem mapBlock_page (s : State) (f : Block → Block) : (s.mapBlock f).page = s.page := rfl
@[simp] theorem mapBlock_program (s : State) (f : Block → Block) : (s.mapBlock f).program = s.program := rfl
@[simp] theorem mapBlock_reads (s : State) (f : Block → Block) : (s.mapBlock f).reads = s.reads := rfl
@[simp] theorem mapBlock_turns (s : State) (f : Block → Block) : (s.mapBlock f).turns = s.turns := rfl

@[simp] theorem record_blk (s : State) (off : Nat) (v : Word) : (s.record off v).blk = s.blk := rfl
@[simp] theorem record_page (s : State) (off : Nat) (v : Word) : (s.record off v).page = s.page := rfl
@[simp] theorem record_program (s : State) (off : Nat) (v : Word) : (s.record off v).program = s.program := rfl
@[simp] theorem record_reads (s : State) (off : Nat) (v : Word) : (s.record off v).reads = s.reads ++ [(off, v)] := rfl
@[simp] theorem record_turns (s : State) (off : Nat) (v : Word) : (s.record off v).turns = s.turns := rfl

@[simp] theorem dropTurn_blk (s : State) : s.dropTurn.blk = s.blk := rfl
@[simp] theorem dropTurn_page (s : State) : s.dropTurn.page = s.page := rfl
@[simp] theorem dropTurn_base (s : State) : s.dropTurn.base = s.base := rfl
@[simp] theorem dropTurn_program (s : State) : s.dropTurn.program = s.program := rfl
@[simp] theorem dropTurn_reads (s : State) : s.dropTurn.reads = s.reads := rfl
@[simp] theorem dropTurn_turns (s : State) : s.dropTurn.turns = s.turns.tail := rfl

/-! ### Operands and results -/

theorem lowWord_join (hi lo : Word) : lowWord (join hi lo) = lo := by
  simp only [lowWord, join]
  exact BitVec.extractLsb'_append_eq_right

theorem highWord_join (hi lo : Word) : highWord (join hi lo) = hi := by
  simp only [highWord, join]
  exact BitVec.extractLsb'_append_eq_left

theorem join_split (x : Dword) : join (highWord x) (lowWord x) = x := by
  simp only [join, highWord, lowWord]
  ext i hi
  simp only [BitVec.getElem_append, BitVec.getElem_extractLsb']
  split
  · simp [← BitVec.getLsbD_eq_getElem]
  · rename_i h
    have : 32 + (i - 32) = i := by omega
    simp [this, ← BitVec.getLsbD_eq_getElem]

theorem join_inj {hi lo hi' lo' : Word} (h : join hi lo = join hi' lo') : hi = hi' ∧ lo = lo' := by
  constructor
  · rw [← highWord_join hi lo, h, highWord_join]
  · rw [← lowWord_join hi lo, h, lowWord_join]

/-! ### The shared operations on the block: what each leaves, in one lemma each -/

/-- The error termination writes ERR, ERRCODE, the request flag and `seq` (R145). -/
theorem raiseError_eq (c : ErrorCode) (b : Block) :
    raiseError c b = { b with err := true, errcode := c.code, rngPending := false, seq := .idle } := rfl

/-- The successful termination (R132). -/
theorem finish_eq (res : Results) (b : Block) :
    finish res b = { b with
      rLo := (res.r.map lowWord).getD b.rLo, rHi := (res.r.map highWord).getD b.rHi,
      rounds := res.rounds.getD b.rounds, witLo := (res.wit.map lowWord).getD b.witLo,
      witHi := (res.wit.map highWord).getD b.witHi, done := true, rngPending := false, seq := .idle } := rfl

/-- The first part of an issue (R130). -/
theorem beginCommand_eq (opc : BitVec 8) (b : Block) :
    beginCommand opc b = { b with
      done := false, err := false, errcode := 0, op := opc, sa := b.opA, sb := b.opB, sm := b.opM } := rfl

theorem illegalCommand_eq (b : Block) :
    illegalCommand b = { b with done := false, err := true, errcode := 2, rngPending := false, seq := .idle } := rfl

/-- A round writes only working registers (R38, R111). -/
theorem runRound_frame (b : Block) :
    ∃ (acc bp e t y : Dword) (prod : BitVec 128),
      runRound b = { b with acc := acc, bp := bp, e := e, prod := prod, t := t, y := y } :=
  ⟨_, _, _, _, _, _, rfl⟩

/-- The registers a round leaves alone, one by one. -/
@[simp] theorem runRound_fields (b : Block) :
    (runRound b).ie = b.ie ∧ (runRound b).done = b.done ∧ (runRound b).err = b.err ∧ (runRound b).ovr = b.ovr ∧
    (runRound b).errcode = b.errcode ∧ (runRound b).aLo = b.aLo ∧ (runRound b).aHi = b.aHi ∧
    (runRound b).bLo = b.bLo ∧ (runRound b).bHi = b.bHi ∧ (runRound b).mLo = b.mLo ∧ (runRound b).mHi = b.mHi ∧
    (runRound b).rLo = b.rLo ∧ (runRound b).rHi = b.rHi ∧ (runRound b).rounds = b.rounds ∧
    (runRound b).witLo = b.witLo ∧ (runRound b).witHi = b.witHi ∧ (runRound b).seq = b.seq ∧
    (runRound b).op = b.op ∧ (runRound b).sa = b.sa ∧ (runRound b).sb = b.sb ∧ (runRound b).sm = b.sm ∧
    (runRound b).n = b.n ∧ (runRound b).d = b.d ∧ (runRound b).a = b.a ∧ (runRound b).r = b.r ∧
    (runRound b).rngPending = b.rngPending ∧ (runRound b).rngLo = b.rngLo ∧ (runRound b).rngHi = b.rngHi := by
  obtain ⟨acc, bp, e, t, y, prod, h⟩ := runRound_frame b
  rw [h]
  simp only [and_self]

/-- The verdict of a round just run is the verdict of R111 on the registers it read. -/
theorem lastVerdict_runRound (b : Block) :
    lastVerdict (runRound b) = roundVerdict b.n (roundRun b.n b.d (powRun b.a b.d b.n b.prod)) := rfl

end Sys2Proof.Machine
end

