-- ==== Sys2Proof/Laws/Step.lean ====
section
/-! SUPPORT. What a step does, said once: its turn, the host's access at each kind of offset, and every case in which a
step answers a next state (R52 to R54, R130, R131, R133, R147). -/

namespace Sys2Proof.Machine

/-! ### The next turn -/

@[simp] theorem step_withTurn (s : State) (t : Turn) : step (s.withTurn t) = takeTurn t s := rfl

theorem step_unlisted {s : State} (h : s.turns = []) :
    step s = takeTurn (if s.blk.seq = .exec then .engine else .host) s := by
  cases s
  simp only at h
  subst h
  rfl

@[simp] theorem step_withHost_access (s : State) (a : Access) :
    step (s.withHost (.access a)) = hostAccess a s := rfl

@[simp] theorem step_withHost_poll (s : State) :
    step (s.withHost .poll) = .next (hostPoll s.program { s with program := .poll :: s.program }) := rfl

/-- One step of a run. -/
theorem run_succ {k : Nat} {s t : State} (h : step s = .next t) :
    Host.Core.run core (k + 1) s = Host.Core.run core k t := by
  simp only [Host.Core.run]
  rw [show core.step s = .next t from h]

/-! ### Host accesses -/

theorem touchesWindow_iff (base addr n : Nat) :
    touchesWindow base addr n = true ↔ addr < base + 0x100 ∧ base < addr + n := by
  simp only [touchesWindow, Bool.and_eq_true, decide_eq_true_eq]
  rfl

theorem onRegister_iff (base addr : Nat) :
    onRegister base addr = true ↔ base ≤ addr ∧ addr < base + 0x100 ∧ (addr - base) % 4 = 0 := by
  simp only [onRegister, Bool.and_eq_true, decide_eq_true_eq, and_assoc]
  rfl

theorem decodeAccess_read {base off : Nat} (h : off ≤ 0xFC) (h4 : off % 4 = 0) :
    decodeAccess base (.read (base + off) .word) = .read off := by
  have h1 := (touchesWindow_iff base (base + off) Size.word.bytes).2 ⟨by omega, by simp [Size.bytes]; omega⟩
  have h2 := (onRegister_iff base (base + off)).2 ⟨by omega, by omega, by simpa using h4⟩
  simp [decodeAccess, h1, h2]

theorem decodeAccess_write {base off : Nat} (v : Word) (h : off ≤ 0xFC) (h4 : off % 4 = 0) :
    decodeAccess base (.write (base + off) (.word v)) = .write off v := by
  have h1 := (touchesWindow_iff base (base + off) (WriteData.word v).size.bytes).2
    ⟨by omega, by simp [WriteData.size, Size.bytes]; omega⟩
  have h2 := (onRegister_iff base (base + off)).2 ⟨by omega, by omega, by simpa using h4⟩
  simp [decodeAccess, h1, h2]

/-- A well-formed access is one that the bus interface decodes as a read or a write of a register (R52). -/
theorem decodeAccess_of_wf {base : Nat} {a : Access} (h : a.wf base = true) :
    (∃ off, decodeAccess base a = .read off) ∨ ∃ off v, decodeAccess base a = .write off v := by
  rcases a with ⟨addr, size⟩ | ⟨addr, data⟩
  · have hp : size.bytes = 4 ∧ base ≤ addr ∧ addr ≤ base + 0xFC ∧ (addr - base) % 4 = 0 := by
      simpa [Access.wf, and_assoc] using h
    have hs : size = .word := by cases size <;> simp_all [Size.bytes]
    obtain ⟨off, rfl⟩ := Nat.exists_eq_add_of_le hp.2.1
    subst hs
    exact .inl ⟨off, decodeAccess_read (by omega) (by simpa using hp.2.2.2)⟩
  · have hp : data.size.bytes = 4 ∧ base ≤ addr ∧ addr ≤ base + 0xFC ∧ (addr - base) % 4 = 0 := by
      simpa [Access.wf, and_assoc] using h
    obtain ⟨off, rfl⟩ := Nat.exists_eq_add_of_le hp.2.1
    cases data with
    | word v => exact .inr ⟨off, v, decodeAccess_write v (by omega) (by simpa using hp.2.2.2)⟩
    | byte v => simp [WriteData.size, Size.bytes] at hp
    | half v => simp [WriteData.size, Size.bytes] at hp
    | dword v => simp [WriteData.size, Size.bytes] at hp

/-- An access of the window that is no well-formed one: malformed (R53). -/
theorem decodeAccess_malformed_read {base addr : Nat} {size : Size} (ht : touchesWindow base addr size.bytes = true)
    (h : size ≠ .word ∨ onRegister base addr = false) : decodeAccess base (.read addr size) = .malformed := by
  simp only [decodeAccess]
  rw [if_pos ht, if_neg]
  rintro ⟨h1, h2⟩
  rcases h with h | h
  · exact h h1
  · rw [h2] at h; cases h

theorem decodeAccess_malformed_write {base addr : Nat} {data : WriteData}
    (ht : touchesWindow base addr data.size.bytes = true)
    (h : data.size ≠ .word ∨ onRegister base addr = false) : decodeAccess base (.write addr data) = .malformed := by
  cases data with
  | word v =>
    rcases h with h | h
    · exact absurd rfl h
    · simp [decodeAccess, ht, h]
  | byte v => simp [decodeAccess, ht]
  | half v => simp [decodeAccess, ht]
  | dword v => simp [decodeAccess, ht]

/-- An access no byte of which lies in the window (R51). -/
theorem decodeAccess_outside_read {base addr : Nat} {size : Size} (ht : touchesWindow base addr size.bytes = false) :
    decodeAccess base (.read addr size) = .outside := by simp [decodeAccess, ht]

theorem decodeAccess_outside_write {base addr : Nat} {data : WriteData}
    (ht : touchesWindow base addr data.size.bytes = false) : decodeAccess base (.write addr data) = .outside := by
  cases data <;> simp [decodeAccess, ht]

theorem step_hostReads (s : State) {off : Nat} (h : off ≤ 0xFC) (h4 : off % 4 = 0) :
    step (s.hostReads off) = .next (s.record off (readWindow s.blk off)) := by
  simp [State.hostReads, hostAccess, decodeAccess_read h h4]

theorem step_hostWrites (s : State) {off : Nat} (v : Word) (h : off ≤ 0xFC) (h4 : off % 4 = 0) :
    step (s.hostWrites off v) = writeWindow off v s := by
  simp [State.hostWrites, hostAccess, decodeAccess_write v h h4]

theorem regAt_offset (r : Reg) : regAt r.offset = some r := by cases r <;> rfl

theorem regAt_reserved {off : Nat} (h : 0x3C ≤ off) : regAt off = none := by
  unfold regAt
  split <;> first | rfl | omega

theorem offset_wf (r : Reg) : r.offset ≤ 0xFC ∧ r.offset % 4 = 0 := by cases r <;> decide

/-- A write of a named register other than CMD (R135, R138, R139). -/
theorem step_writes_reg (s : State) (v : Word) {r : Reg} (h : r ≠ .cmd) :
    step (s.hostWrites r.offset v) = .next (s.mapBlock fun b => writeReg v b r) := by
  rw [step_hostWrites s v (offset_wf r).1 (offset_wf r).2, writeWindow, regAt_offset]
  cases r <;> first | rfl | exact absurd rfl h

theorem step_writes_cmd (s : State) (v : Word) : step (s.hostWrites 0x0C v) = commandWrite v s := by
  rw [step_hostWrites s v (by decide) (by decide)]
  rfl

theorem step_writes_reserved (s : State) {off : Nat} (v : Word) (h : 0x3C ≤ off) (h' : off ≤ 0xFC)
    (h4 : off % 4 = 0) : step (s.hostWrites off v) = .next s := by
  rw [step_hostWrites s v h' h4, writeWindow, regAt_reserved h]

theorem commandWrite_idle {s : State} {v : Word} {i : Instr} (h : s.blk.seq = .idle)
    (hd : decodeWord v = .command i) : commandWrite v s = exec i s := by simp [commandWrite, h, hd]

theorem commandWrite_illegal {s : State} {v : Word} {w : Reject} (h : s.blk.seq = .idle)
    (hd : decodeWord v = .reject w) : commandWrite v s = .next (s.mapBlock illegalCommand) := by
  simp [commandWrite, h, hd]

theorem commandWrite_busy {s : State} (v : Word) (h : s.blk.seq ≠ .idle) :
    commandWrite v s = .next (s.mapBlock overrun) := by
  unfold commandWrite
  split
  · contradiction
  · rfl
  · rfl

/-- The step of a host whose next operation is a well-formed write (R52, R60). -/
theorem step_of_writesNext {s : State} {off : Nat} {v : Word} (h : WritesNext s off v) (h1 : off ≤ 0xFC)
    (h4 : off % 4 = 0) :
    ∃ rest, step s = writeWindow off v { s with program := rest, turns := s.turns.tail } := by
  obtain ⟨hturn, rest, hprog⟩ := h
  refine ⟨rest, ?_⟩
  have hd : decodeAccess s.base (.write (s.base + off) (.word v)) = .write off v := decodeAccess_write v h1 h4
  unfold step takeTurn
  rw [hturn]
  simp only [hostTurn, dropTurn_program, hprog, hostAccess]
  rw [show ({ s.dropTurn with program := rest } : State).base = s.base from rfl, hd]
  rfl

/-! ### Commands -/

/-- What a command does to the block: its phase, by the sequencer (R130, R133). -/
def commandPhase : Instr → Block → Block
  | .nop => runPhase (opcode .nop) (finish {}) id
  | .modpow => runPhase (opcode .modpow) issueModulus computeModpow
  | .modmul => runPhase (opcode .modmul) issueModulus computeModmul
  | .mrround => runPhase (opcode .mrround) issueMrround computeMrround
  | .primetest => runPhase (opcode .primetest) issuePrimetest computePrimetest

/-- Every command answers a next state, with a change of the block alone. -/
theorem exec_eq (i : Instr) (s : State) : exec i s = .next (s.mapBlock (commandPhase i)) := by cases i <;> rfl

/-- The part of a command's rule at issue (R92, R93, R113, R114, R134). -/
def issuePart : Instr → Block → Block
  | .nop => finish {}
  | .modpow => issueModulus
  | .modmul => issueModulus
  | .mrround => issueMrround
  | .primetest => issuePrimetest

/-- The part of a command's rule in EXEC (R92, R93, R113, R114). -/
def computePart : Instr → Block → Block
  | .nop => id
  | .modpow => computeModpow
  | .modmul => computeModmul
  | .mrround => computeMrround
  | .primetest => computePrimetest

theorem commandPhase_idle (i : Instr) {b : Block} (h : b.seq = .idle) :
    commandPhase i b = issuePart i (beginCommand (opcode i) b) := by
  cases i <;> simp [commandPhase, issuePart, runPhase, h]

theorem commandPhase_exec (i : Instr) {b : Block} (h : b.seq = .exec) : commandPhase i b = computePart i b := by
  cases i <;> simp [commandPhase, computePart, runPhase, h]

theorem commandPhase_rngwait (i : Instr) {b : Block} (h : b.seq = .rngwait) : commandPhase i b = b := by
  cases i <;> simp [commandPhase, runPhase, h]

/-- `exec` while the engine computes (R133). -/
theorem exec_inExec (i : Instr) {s : State} (h : s.blk.seq = .exec) :
    exec i s = .next { s with blk := computePart i s.blk } := by
  rw [exec_eq, State.mapBlock, commandPhase_exec i h]

/-- `exec` at issue (R130). -/
theorem exec_atIssue (i : Instr) {s : State} (h : s.blk.seq = .idle) :
    exec i s = .next { s with blk := issuePart i (beginCommand (opcode i) s.blk) } := by
  rw [exec_eq, State.mapBlock, commandPhase_idle i h]

/-! ### Every way a step answers a next state -/

/-- The change a step makes to the block, and the step that makes it. -/
inductive BlockStep (s : State) : Block → Prop
  /-- Nothing to do, a read, a poll, an access outside the window, or a write with no effect. -/
  | unchanged : BlockStep s s.blk
  /-- The issue of a command on an idle engine (R130). -/
  | issue (i : Instr) (v : Word) : s.blk.seq = .idle → WritesNext s 0x0C v →
      decodeWord v = .command i → BlockStep s (issuePart i (beginCommand (opcode i) s.blk))
  /-- An illegal word on an idle engine (R72). -/
  | illegal (v : Word) : s.blk.seq = .idle → WritesNext s 0x0C v → BlockStep s (illegalCommand s.blk)
  /-- A CMD write on a busy engine (R131). -/
  | overrun (v : Word) : s.blk.seq ≠ .idle → WritesNext s 0x0C v → BlockStep s (overrun s.blk)
  /-- A write of another register (R135, R138, R139). -/
  | write (r : Reg) (v : Word) : r ≠ .cmd → WritesNext s r.offset v → BlockStep s (writeReg v s.blk r)
  /-- The engine's step (R133). -/
  | engine (i : Instr) : nextTurn s = .engine → s.blk.seq = .exec → s.blk.op = opcode i →
      BlockStep s (computePart i s.blk)
  /-- The random source's answer (R116). -/
  | answer (v : Dword) : nextTurn s = .random v → s.blk.rngPending = true →
      BlockStep s { s.blk with a := v, rngPending := false, seq := .exec }
  /-- The reset input (R170). -/
  | reset : nextTurn s = .rst → BlockStep s Block.reset

/-- An access the bus interface decodes as a write is a word write at that offset (R52). -/
theorem decodeAccess_write_inv {base off : Nat} {v : Word} {a : Access} (h : decodeAccess base a = .write off v) :
    a = .write (base + off) (.word v) := by
  rcases a with ⟨addr, size⟩ | ⟨addr, data⟩
  · simp only [decodeAccess] at h
    split at h
    · split at h <;> cases h
    · cases h
  · simp only [decodeAccess] at h
    split at h
    · split at h
      · split at h
        · rename_i hreg
          cases h
          have : base ≤ addr := by simp [onRegister] at hreg; omega
          rw [Nat.add_sub_cancel' this]
        · cases h
      · cases h
    · cases h

theorem regAt_inv {off : Nat} {r : Reg} (h : regAt off = some r) : off = r.offset := by
  unfold regAt at h
  split at h <;> cases h <;> rfl

/-- Every step that answers a next state is one of these, and leaves the base alone. -/
theorem step_cases {s t : State} (h : step s = .next t) : BlockStep s t.blk ∧ t.page = s.page := by
  unfold step takeTurn at h
  split at h
  · rename_i hturn
    unfold hostTurn at h
    split at h
    · cases h; exact ⟨.unchanged, rfl⟩
    · rename_i acc rest hprog
      unfold hostAccess at h
      split at h
      · cases h; exact ⟨.unchanged, rfl⟩
      · cases h
      · cases h; exact ⟨.unchanged, rfl⟩
      · rename_i off v hdec
        have hw : WritesNext s off v := ⟨hturn, rest, by
          rw [dropTurn_program] at hprog
          rw [hprog, decodeAccess_write_inv hdec]
          rfl⟩
        unfold writeWindow at h
        split at h
        · rename_i hreg
          have hoff := regAt_inv hreg
          subst hoff
          by_cases hs : s.blk.seq = .idle
          · cases hd : decodeWord v with
            | command i =>
              rw [commandWrite_idle (by exact hs) hd, exec_eq] at h
              cases h
              refine ⟨?_, rfl⟩
              rw [mapBlock_blk, commandPhase_idle i (by exact hs)]
              exact .issue i v hs hw hd
            | reject w =>
              rw [commandWrite_illegal (by exact hs) hd] at h
              cases h
              exact ⟨.illegal v hs hw, rfl⟩
          · rw [commandWrite_busy v (by exact hs)] at h
            cases h
            exact ⟨.overrun v hs hw, rfl⟩
        · rename_i r hne hreg
          have hoff := regAt_inv hreg
          subst hoff
          cases h
          exact ⟨.write r v (by rintro rfl; exact hne rfl) hw, rfl⟩
        · cases h; exact ⟨.unchanged, rfl⟩
    · cases h
      refine ⟨?_, ?_⟩ <;> unfold hostPoll <;> split <;> first | exact .unchanged | rfl
  · rename_i hturn
    unfold engineTurn at h
    split at h
    · rename_i hs
      split at h
      · rename_i i hop
        rw [exec_eq] at h
        cases h
        refine ⟨?_, rfl⟩
        rw [mapBlock_blk, commandPhase_exec i (by exact hs)]
        exact .engine i hturn hs (decodeOpcode_eq hop)
      · cases h
    · cases h; exact ⟨.unchanged, rfl⟩
    · cases h; exact ⟨.unchanged, rfl⟩
  · rename_i v hturn
    cases h
    refine ⟨?_, rfl⟩
    rw [mapBlock_blk]
    unfold answerWitness
    split
    · rename_i hp
      exact .answer v hturn hp
    · exact .unchanged
  · rename_i hturn
    cases h
    exact ⟨.reset hturn, rfl⟩
  · cases h

end Sys2Proof.Machine
end

