-- ==== Sys2Proof/Laws/Commands.lean ====
section
/-! SUPPORT. Every way a command's issue and its computation can end, said once (R92, R93, R113, R114, R130, R134), and
every effect of a CTRL write (R135). -/

namespace Sys2Proof.Machine

/-- How the issue part of command `i` ends, `b` being the block after its first lines (R130). -/
inductive IssueOutcome (i : Instr) (b : Block) : Block → Prop
  | nop : i = .nop → IssueOutcome i b (finish {} b)
  | modulusZero : i = .modpow ∨ i = .modmul → b.sm = 0 → IssueOutcome i b (raiseError .invalidModulus b)
  | modulusGood : i = .modpow ∨ i = .modmul → b.sm ≠ 0 → IssueOutcome i b (startExec b)
  | candidateBad : i = .mrround → ¬OddCandidate b.sm.toNat → IssueOutcome i b (raiseError .invalidCandidate b)
  | witnessBad : i = .mrround → OddCandidate b.sm.toNat → (b.sa.toNat < 1 ∨ b.sm.toNat - 2 < b.sa.toNat) →
      IssueOutcome i b (raiseError .witnessOutOfRange b)
  | roundGood : i = .mrround → OddCandidate b.sm.toNat → 1 ≤ b.sa.toNat → b.sa.toNat ≤ b.sm.toNat - 2 →
      IssueOutcome i b (startExec b)
  | primetest : i = .primetest → IssueOutcome i b (startExec { b with r := 0 })

theorem issuePart_cases (i : Instr) (b : Block) : IssueOutcome i b (issuePart i b) := by
  cases i with
  | nop => exact .nop rfl
  | modpow =>
    simp only [issuePart, issueModulus]
    split
    · exact .modulusZero (.inl rfl) ‹_›
    · exact .modulusGood (.inl rfl) ‹_›
  | modmul =>
    simp only [issuePart, issueModulus]
    split
    · exact .modulusZero (.inr rfl) ‹_›
    · exact .modulusGood (.inr rfl) ‹_›
  | mrround =>
    simp only [issuePart, issueMrround, candidateInvalid_eq, witnessOutside_eq]
    split
    · exact .candidateBad rfl (by unfold OddCandidate; omega)
    · split
      · exact .witnessBad rfl (by unfold OddCandidate; omega) ‹_›
      · exact .roundGood rfl (by unfold OddCandidate; omega) (by omega) (by omega)
  | primetest => exact .primetest rfl

/-- How the engine's step on command `i` ends (R92, R93, R113, R114). -/
inductive ComputeOutcome (i : Instr) (b : Block) : Block → Prop
  | nop : i = .nop → ComputeOutcome i b b
  | modpow (x bp e : Dword) (prod : BitVec 128) : i = .modpow → x = (powRun b.sa b.sb b.sm b.prod).acc →
      ComputeOutcome i b (finish { r := some x } { b with acc := x, bp := bp, e := e, prod := prod })
  | modmul (prod : BitVec 128) : i = .modmul →
      ComputeOutcome i b (finish { r := some (modMulCore b.sa b.sb b.sm) } { b with prod := prod })
  | mrround (x : Dword) (b1 : Block) : i = .mrround →
      b1 = { b with n := b.sm, d := decomposeOdd b.sm, a := b.sa } →
      x = boolResult (lastVerdict (runRound b1) == .pass) →
      ComputeOutcome i b (finish { r := some x, rounds := some 1, wit := some b.sa } (runRound b1))
  | fast (p : Bool) : i = .primetest → b.r = 0 → fastPath b.sm = some p →
      ComputeOutcome i b
        (finish { r := some (boolResult p), rounds := some 0, wit := some 0 } { b with n := b.sm })
  | first : i = .primetest → b.r = 0 → ReachesRounds b.sm.toNat →
      ComputeOutcome i b (requestWitness 1 (b.sm - 2) { b with n := b.sm, d := decomposeOdd b.sm, r := 1 })
  | outside : i = .primetest → b.r ≠ 0 → (b.a.toNat < 1 ∨ b.n.toNat - 2 < b.a.toNat) →
      ComputeOutcome i b (raiseError .rngRange b)
  | composite : i = .primetest → b.r ≠ 0 → 1 ≤ b.a.toNat → b.a.toNat ≤ b.n.toNat - 2 →
      lastVerdict (runRound b) = .composite →
      ComputeOutcome i b (finish { r := some 0, rounds := some b.r, wit := some b.a } (runRound b))
  | again : i = .primetest → b.r ≠ 0 → b.r.toNat < 20 → 1 ≤ b.a.toNat → b.a.toNat ≤ b.n.toNat - 2 →
      lastVerdict (runRound b) = .pass →
      ComputeOutcome i b (requestWitness 1 (b.n - 2) { runRound b with r := b.r + 1 })
  | last : i = .primetest → b.r ≠ 0 → 20 ≤ b.r.toNat → 1 ≤ b.a.toNat → b.a.toNat ≤ b.n.toNat - 2 →
      lastVerdict (runRound b) = .pass →
      ComputeOutcome i b (finish { r := some 1, rounds := some 20, wit := some b.a } (runRound b))

theorem fastPath_none {n : Dword} (h : fastPath n = none) : ReachesRounds n.toNat := by
  rw [fastPath_eq] at h
  split at h
  · cases h
  · split at h
    · cases h
    · unfold ReachesRounds
      omega

theorem fastPath_some {n : Dword} {p : Bool} (h : fastPath n = some p) : ¬ReachesRounds n.toNat := by
  rw [fastPath_eq] at h
  unfold ReachesRounds
  intro hr
  rw [if_neg (by omega), if_neg (by omega)] at h
  cases h

theorem computePart_cases (i : Instr) (b : Block) : ComputeOutcome i b (computePart i b) := by
  cases i with
  | nop => exact .nop rfl
  | modpow => exact .modpow _ _ _ _ rfl rfl
  | modmul => exact .modmul _ rfl
  | mrround => exact .mrround _ _ rfl rfl rfl
  | primetest =>
    simp only [computePart, computePrimetest]
    split
    · rename_i hr
      simp only [beginPrimetest]
      split
      · exact .fast _ rfl hr ‹_›
      · exact .first rfl hr (fastPath_none ‹_›)
    · rename_i hr
      simp only [roundPrimetest, witnessOutside_eq]
      split
      · exact .outside rfl hr ‹_›
      · split
        · exact .composite rfl hr (by omega) (by omega) ‹_›
        · split
          · exact .again rfl hr ‹_› (by omega) (by omega) ‹_›
          · rename_i h20
            exact .last rfl hr (by simpa [mrRounds] using h20) (by omega) (by omega) ‹_›

/-- The three effects of a CTRL write (R135). -/
inductive CtrlOutcome (v : Word) (b : Block) : Block → Prop
  | reset : v.getLsbD 2 = true → CtrlOutcome v b Block.reset
  | abort : v.getLsbD 2 = false → v.getLsbD 1 = true → b.seq ≠ .idle →
      CtrlOutcome v b (raiseError .aborted { b with ie := v.getLsbD 0 })
  | enable : v.getLsbD 2 = false → (v.getLsbD 1 = false ∨ b.seq = .idle) →
      CtrlOutcome v b { b with ie := v.getLsbD 0 }

theorem writeCtrl_cases (v : Word) (b : Block) : CtrlOutcome v b (writeCtrl v b) := by
  unfold writeCtrl
  cases h2 : v.getLsbD 2
  · rw [if_neg (by decide)]
    split
    · exact .abort h2 (by tauto) (by tauto)
    · refine .enable h2 ?_
      cases h1 : v.getLsbD 1 <;> simp_all
  · rw [if_pos rfl]
    exact .reset h2

end Sys2Proof.Machine
end

