-- ==== Sys2Proof/Laws/PerInstr.lean ====
section
/-! SUPPORT. Statements made of every command as syntax, one lemma per constructor (R70, R71, R72). -/

namespace Sys2Proof.Laws.LegalWord

/-- The command is well-formed and its word is a legal command word: four bytes, the reserved field zero, and in OPC the
command's opcode, which the opcode map gives back (R70 to R72). -/
def Statement (i : Instr) : Prop :=
  i.wf = true ∧ commandWordWf (encodeWord i) = true ∧ rsvdField (encodeWord i) = 0 ∧
  opcField (encodeWord i) = opcode i ∧ decodeOpcode (opcode i) = some i ∧ (encode i).length = 4

theorem nop : Statement .nop := by unfold Statement; decide

theorem modpow : Statement .modpow := by unfold Statement; decide

theorem modmul : Statement .modmul := by unfold Statement; decide

theorem mrround : Statement .mrround := by unfold Statement; decide

theorem primetest : Statement .primetest := by unfold Statement; decide

end Sys2Proof.Laws.LegalWord
end

