-- ==== Sys2Proof/Tests/Slice0.lean ====
section
/-! SUPPORT. Tests on fixed values, the expected results from spec/95_test_vectors.md or the rule named, and for each
obligation with hypotheses a state and operands that meet them. -/

namespace Sys2Proof.Tests

open Sys2Proof Sys2Proof.Machine

/-! ### States for the tests -/

/-- The reset machine with operands in A, B and M. -/
def loaded (a b m : Dword) : State :=
  State.reset.mapBlock fun x => { x with
    aLo := lowWord a, aHi := highWord a, bLo := lowWord b, bHi := highWord b, mLo := lowWord m, mHi := highWord m }

/-- The reset machine with a command in EXEC on a snapshot. -/
def running (op : BitVec 8) (a b m : Dword) : State :=
  State.reset.mapBlock fun x => { x with seq := .exec, op := op, sa := a, sb := b, sm := m }

/-- A PRIMETEST of `n` whose request of round `r` was answered `a`. -/
def answered (n d a : Dword) (r : BitVec 5) : State :=
  (running 0x04 0 0 n).mapBlock fun x => { x with n := n, d := d, a := a, r := r }

/-- A PRIMETEST of 3 that waits for the witness of round 1. -/
def waiting : State :=
  (running 0x04 0 0 3).mapBlock fun x => { x with
    seq := .rngwait, n := 3, d := 1, r := 1, rngPending := true, rngLo := 1, rngHi := 1 }

/-- The reset machine with an unread error in STATUS. -/
def failed : State := State.reset.mapBlock fun x => { x with err := true, errcode := 1, ie := true }

/-- The block a step leaves, if it answers a next state. -/
def blockAfter : Host.Outcome State Fault Refusal → Option Block
  | .next t => some t.blk
  | .fault _ => none
  | .refused _ => none

/-- The fault a step ends in, if it does. -/
def faultOf : Host.Outcome State Fault Refusal → Option Fault
  | .next _ => none
  | .fault f => some f
  | .refused _ => none

/-- The value the host's last read returned. -/
def lastRead : Host.Outcome State Fault Refusal → Option (Nat × Word)
  | .next t => t.reads.getLast?
  | .fault _ => none
  | .refused _ => none

/-! ### Decoding: the full words of R71, bit by bit, OPC in bits [7:0] and RSVD in bits [31:8] (R70) -/

theorem test_decode_nop : decodeWord 0b00000000000000000000000000000000 = .command .nop := by decide

theorem test_decode_modpow : decodeWord 0b00000000000000000000000000000001 = .command .modpow := by decide

theorem test_decode_modmul : decodeWord 0b00000000000000000000000000000010 = .command .modmul := by decide

theorem test_decode_mrround : decodeWord 0b00000000000000000000000000000011 = .command .mrround := by decide

theorem test_decode_primetest : decodeWord 0b00000000000000000000000000000100 = .command .primetest := by decide

/-- Lane 0, the lowest address, carries bits [7:0] (R55). -/
theorem test_decode_bytes : decode [0x03, 0x00, 0x00, 0x00] = .command .mrround ∧
    decode [0x00, 0x03, 0x00, 0x00] = .reject .reservedBitsSet ∧ decode [0x03] = .reject .notOneWord := by decide

/-- The table numbers a word from its bit 0. -/
theorem test_decode_table_rows : decodeTableWord 32 0x2 = some .modmul ∧ decodeTableWord 8 0x4 = some .primetest ∧
    decodeTableWord 32 0x5 = none ∧ decodeTableWord 64 0x100000001 = none := by decide

/-- R72, and the illegal words of 95_test_vectors.md L2.5. -/
theorem test_decode_illegal : decodeWord 0x00000005 = .reject .reservedOpcode ∧
    decodeWord 0x00000101 = .reject .reservedBitsSet ∧ decodeWord 0xFFFFFFFF = .reject .reservedBitsSet := by decide

/-! ### WellFormed: an ill-formed term for each check (R52, R72) -/

theorem test_wf_reserved_bits : commandWordWf 0x00000103 = false := by decide

theorem test_wf_reserved_opcode : commandWordWf 0x00000005 = false ∧ commandWordWf 0x00000004 = true := by decide

theorem test_wf_access_size : (Access.read 0x110 .half).wf 0x100 = false ∧
    (Access.write 0x110 (.byte 0)).wf 0x100 = false := by decide

theorem test_wf_access_below : (Access.read 0xFC .word).wf 0x100 = false ∧
    (Access.write 0xFC (.word 0)).wf 0x100 = false := by decide

theorem test_wf_access_above : (Access.read 0x200 .word).wf 0x100 = false ∧
    (Access.write 0x200 (.word 0)).wf 0x100 = false := by decide

theorem test_wf_access_misaligned : (Access.read 0x10A .word).wf 0x100 = false ∧
    (Access.write 0x10A (.word 0)).wf 0x100 = false := by decide

theorem test_wf_access_good : (Access.read 0x1FC .word).wf 0x100 = true := by decide

/-! ### Commands, one step each -/

/-- R134's example: ERR before, DONE after; the error code is cleared. -/
theorem test_nop_after_error :
    (blockAfter (step (failed.hostWrites 0x0C 0x00000000))).map (·.statusWord) = some 0x00000002 := by decide

/-- L1.1: 3^5 mod 7 = 5. -/
theorem test_modpow : (blockAfter (exec .modpow (running 0x01 3 5 7))).map (·.result) = some 5 := by decide

/-- L2.2: `0^0 mod 1` is 0. -/
theorem test_modpow_modulus_one :
    (blockAfter (exec .modpow (running 0x01 0 0 1))).map (·.result) = some 0 := by decide

/-- L2.1: the product of the two widest operands is exact: `max² mod (2^64 − 59) = 3364`. -/
theorem test_modmul_full_width : (blockAfter (exec .modmul
    (running 0x02 0xFFFFFFFFFFFFFFFF 0xFFFFFFFFFFFFFFFF 0xFFFFFFFFFFFFFFC5))).map (·.result) = some 3364 := by decide

/-- L2.1: a zero modulus is InvalidModulus at issue, STATUS `0x00000104`. -/
theorem test_modmul_modulus_zero :
    (blockAfter (exec .modmul (loaded 7 9 0))).map (·.statusWord) = some 0x00000104 := by decide

/-- P3: a round on 561 with witness 2 finds it composite. -/
theorem test_mrround_composite : (blockAfter (exec .mrround (running 0x03 2 0 561))).map
    (fun b => (b.result, b.rounds, b.witness)) = some (0, 1, 2) := by decide

/-- L2.6: the candidate is checked before the witness. -/
theorem test_mrround_priority :
    (blockAfter (exec .mrround (loaded 0 0 4))).map (·.statusWord) = some 0x00000304 := by decide

/-- L1.2: `n = 2` is prime by the first fast path, though even. -/
theorem test_primetest_two : (blockAfter (exec .primetest (running 0x04 0 0 2))).map
    (fun b => (b.result, b.rounds, b.seq)) = some (1, 0, .idle) := by decide

/-- L2.4: the answer 96 for 97 is out of range, STATUS `0x00000604`. -/
theorem test_primetest_range : (blockAfter (exec .primetest (answered 97 3 96 1))).map
    (fun b => (b.statusWord, b.rounds)) = some (0x00000604, 0) := by decide

/-! ### The window -/

/-- L2.5: a MODMUL written while a PRIMETEST waits sets OVR: STATUS `0x00000011` to `0x00000019`. -/
theorem test_overrun :
    (blockAfter (step (waiting.hostWrites 0x0C 0x00000002))).map (·.statusWord) = some 0x00000019 := by decide

/-- L2.5: ABORT while busy, STATUS `0x00000504`. -/
theorem test_abort :
    (blockAfter (step (waiting.hostWrites 0x04 0x00000002))).map (·.statusWord) = some 0x00000504 := by decide

/-- L2.5: SRST wins over IE and ABORT. -/
theorem test_srst : blockAfter (step (waiting.hostWrites 0x04 0x00000007)) = some Block.reset := by decide

/-- L2.5: bits [31:3] of a CTRL write are ignored; CTRL then reads `0x00000001`. -/
theorem test_ctrl_bits : (blockAfter (step (State.reset.hostWrites 0x04 0xFFFFFFF9))).map (fun b => readReg b .ctrl)
    = some 0x00000001 := by decide

/-- L2.5: clearing ERR clears ERRCODE. -/
theorem test_clear_err :
    (blockAfter (step (failed.hostWrites 0x08 0x00000004))).map (·.statusWord) = some 0x00000000 := by decide

/-- L2.5: ID, and a reserved offset. -/
theorem test_reads : lastRead (step (State.reset.hostReads 0x00)) = some (0x00, 0x504B4501) ∧
    lastRead (step (State.reset.hostReads 0x40)) = some (0x40, 0) := by decide

/-- R54 at the last reserved offset, R52 just above it: `0x100` is outside the window. -/
theorem test_window_end : lastRead (step (State.reset.hostReads 0xFC)) = some (0xFC, 0) ∧
    lastRead (step (State.reset.hostReads 0x100)) = none := by decide

/-- L2.5: a 2-byte write and a misaligned read are bus errors. -/
theorem test_malformed :
    faultOf (step (State.reset.withHost (.access (.write 0x10 (.half 7))))) = some (.malformedAccess 0) ∧
    faultOf (step (State.reset.withHost (.access (.read 0x0A .word)))) = some (.malformedAccess 0) := by decide

/-- L2.5's interrupt table: DONE and ERR raise `irq` under IE, OVR does not. -/
theorem test_irq : ({ Block.reset with ie := true, err := true } : Block).irq = true ∧
    ({ Block.reset with ie := true, ovr := true } : Block).irq = false ∧
    ({ Block.reset with done := true } : Block).irq = false := by decide

/-- R79: `ld64` and `run`, at base 0. -/
theorem test_script : assemble 0 false [.ld64 .a 0x100000002, .run .modpow] =
    [memWrite 0 0x10 2, memWrite 0 0x14 1, memWrite 0 0x0C 1, .poll] := by decide

/-- R79: `abort` keeps the IE the script last wrote. -/
theorem test_script_abort : assemble 0 false [.wr (.name .ctrl) 1, .abort, .srst, .abort] =
    [memWrite 0 0x04 1, memWrite 0 0x04 3, memWrite 0 0x04 4, memWrite 0 0x04 2] := by decide

/-- R79: a poll reads STATUS `0x00000011` while a PRIMETEST waits and stays, and goes when BUSY reads 0. -/
theorem test_poll : lastRead (step (waiting.withHost .poll)) = some (0x08, 0x00000011) ∧
    (match step (waiting.withHost .poll) with
      | .next t => t.program
      | .fault _ => []
      | .refused _ => []) = [.poll] ∧
    (match step (failed.withHost .poll) with
      | .next t => t.program
      | .fault _ => [.poll]
      | .refused _ => [.poll]) = [] := by decide

/-- R116: the answer of the random source. -/
theorem test_answer : (blockAfter (step (waiting.withTurn (.random 7)))).map (fun b => (b.a, b.seq, b.rngPending))
    = some (7, .exec, false) := by decide

/-! ### Witnesses: hypotheses that can be met -/

theorem statusInv_reset : StatusInv Block.reset :=
  ⟨by decide, by decide, by decide, by decide, by decide, by decide, by decide, by decide⟩

theorem statusInv_running (op : BitVec 8) (a b m : Dword) : StatusInv (running op a b m).blk := by
  constructor <;> simp [running, State.reset, Block.reset]

theorem statusInv_waiting : StatusInv waiting.blk :=
  ⟨by decide, by decide, by decide, by decide, by decide, by decide, by decide, by decide⟩

theorem statusInv_failed : StatusInv failed.blk :=
  ⟨by decide, by decide, by decide, by decide, by decide, by decide, by decide, by decide⟩

theorem commandInv_modmul : CommandInv (running 0x02 4 14 23).blk :=
  ⟨by decide, by decide, fun _ h => absurd h (by decide), fun _ h => absurd h (by decide), by decide⟩

theorem commandInv_waiting : CommandInv waiting.blk :=
  ⟨by decide, by decide, fun _ h => absurd h (by decide),
    fun _ _ _ => ⟨rfl, ⟨by decide, by decide⟩, by decide, 1, by decide, by decide⟩, by decide⟩

/-- Both ways a word is illegal, at their boundaries. -/
theorem witness_IllegalWordEndsAtIssue : State.reset.blk.seq = .idle ∧
    ((0x00000005 : Word).extractLsb' 8 24 = 0 ∧ 5 ≤ ((0x00000005 : Word).extractLsb' 0 8).toNat) ∧
    ((0x00000100 : Word).extractLsb' 8 24 ≠ 0 ∧ ((0x00000100 : Word).extractLsb' 0 8).toNat < 5) := by decide

theorem witness_StepIssuesTheDecodedCommand : State.reset.blk.seq = .idle ∧ State.reset.blk.rngPending = false ∧
    decodeWord 4 = .command .primetest ∧ decodeTableWord 32 4 = some .primetest := by decide

theorem witness_EngineTurnRunsTheCurrentCommand :
    ((running 0x02 4 14 23).blk.seq = .exec ∧ decodeOpcode (running 0x02 4 14 23).blk.op = some .modmul) ∧
    State.reset.blk.seq ≠ .exec ∧ waiting.blk.seq ≠ .exec := by decide

theorem witness_UnlistedTurnIsEngineElseHost :
    ((running 0x02 4 14 23).turns = [] ∧ (running 0x02 4 14 23).blk.seq = .exec) ∧
    (waiting.turns = [] ∧ waiting.blk.seq ≠ .exec) := by decide

theorem witness_CommandWhileBusyOnlySetsOverrun : waiting.blk.seq ≠ .idle ∧ (running 1 3 5 7).blk.seq ≠ .idle := by
  decide

theorem witness_NopFinishesAtIssue : failed.blk.seq = .idle ∧ waiting.blk.seq ≠ .idle := by decide

theorem witness_ModulusCommandsIssue : (loaded 3 5 0).blk.seq = .idle ∧ (loaded 3 5 0).blk.opM = 0 ∧
    (loaded 3 5 1).blk.seq = .idle ∧ (loaded 3 5 1).blk.opM ≠ 0 := by decide

/-- Each clause at its boundary: candidates 2 and 1, witnesses 0 and 2 of 3, and the one witness of 3. -/
theorem witness_MrroundIssueChecks : (loaded 1 0 3).blk.seq = .idle ∧
    (loaded 1 0 2).blk.opM.toNat % 2 = 0 ∧ (loaded 1 0 1).blk.opM.toNat < 3 ∧
    ((loaded 0 0 3).blk.opM.toNat % 2 = 1 ∧ 3 ≤ (loaded 0 0 3).blk.opM.toNat ∧ (loaded 0 0 3).blk.opA.toNat < 1) ∧
    (loaded 2 0 3).blk.opM.toNat - 2 < (loaded 2 0 3).blk.opA.toNat ∧
    (1 ≤ (loaded 1 0 3).blk.opA.toNat ∧ (loaded 1 0 3).blk.opA.toNat ≤ (loaded 1 0 3).blk.opM.toNat - 2) := by decide

theorem witness_PrimetestIssueChecksNothing : (loaded 0 0 0).blk.seq = .idle := by decide

theorem witness_IssueErrorPriority : (loaded 0 0 4).blk.seq = .idle := by decide

theorem witness_ModmulComputesProductModulo :
    (running 0x02 7 9 1).blk.seq = .exec ∧ (running 0x02 7 9 1).blk.sm ≠ 0 := by decide

theorem witness_ModpowComputesPowerModulo :
    (running 0x01 0 0 1).blk.seq = .exec ∧ (running 0x01 0 0 1).blk.sm ≠ 0 := by decide

theorem witness_MrroundDecidesStrongPass : (running 0x03 1 0 3).blk.seq = .exec ∧
    OddCandidate (running 0x03 1 0 3).blk.sm.toNat ∧ 1 ≤ (running 0x03 1 0 3).blk.sa.toNat ∧
    (running 0x03 1 0 3).blk.sa.toNat ≤ (running 0x03 1 0 3).blk.sm.toNat - 2 := by
  unfold OddCandidate
  decide

/-- A candidate of each fast path: 2, 1, 4 and 9. -/
theorem witness_PrimetestFastPaths : (running 0x04 0 0 9).blk.seq = .exec ∧ (running 0x04 0 0 9).blk.r = 0 ∧
    ¬ReachesRounds 2 ∧ ¬ReachesRounds 1 ∧ ¬ReachesRounds 4 ∧ ¬ReachesRounds 9 := by
  unfold ReachesRounds
  decide

theorem witness_PrimetestRequestsFirstWitness : (running 0x04 0 0 3).blk.seq = .exec ∧
    (running 0x04 0 0 3).blk.r = 0 ∧ ReachesRounds (running 0x04 0 0 3).blk.sm.toNat := by
  unfold ReachesRounds
  decide

/-- Answers just below and just above `[1, 1]`. -/
theorem witness_PrimetestRejectsOutOfRangeAnswer : (answered 3 1 0 1).blk.seq = .exec ∧ (answered 3 1 0 1).blk.r ≠ 0 ∧
    3 ≤ (answered 3 1 0 1).blk.n.toNat ∧ (answered 3 1 0 1).blk.a.toNat < 1 ∧
    (answered 3 1 2 1).blk.n.toNat - 2 < (answered 3 1 2 1).blk.a.toNat := by decide

theorem strongPass_three : StrongPass 3 1 := ⟨1, 1, by decide, by decide, .inl (by decide)⟩

theorem not_strongPass_nine : ¬StrongPass 9 2 := by
  rw [strongPass_iff (d := 1) (k := 3) 2 (by decide) (by decide)]
  decide

/-- A composite outcome (9 with 2), a pass in round 19, and a pass in round 20. -/
theorem witness_PrimetestRoundOutcome :
    ((answered 9 1 2 1).blk.seq = .exec ∧ (answered 9 1 2 1).blk.r ≠ 0 ∧ (answered 9 1 2 1).blk.r.toNat ≤ 20 ∧
      OddCandidate 9 ∧ OddPart 9 1 ∧ 1 ≤ (answered 9 1 2 1).blk.a.toNat ∧
      (answered 9 1 2 1).blk.a.toNat ≤ (answered 9 1 2 1).blk.n.toNat - 2 ∧ ¬StrongPass 9 2) ∧
    (OddCandidate 3 ∧ OddPart 3 1 ∧ StrongPass 3 1 ∧ (answered 3 1 1 19).blk.r.toNat < 20 ∧
      (answered 3 1 1 20).blk.r.toNat = 20 ∧
      (answered 3 1 1 20).blk.a.toNat ≤ (answered 3 1 1 20).blk.n.toNat - 2) :=
  ⟨⟨rfl, by decide, by decide, ⟨by decide, by decide⟩, ⟨by decide, 3, by decide, by decide⟩, by decide, by decide,
    not_strongPass_nine⟩, ⟨by decide, by decide⟩, ⟨by decide, 1, by decide, by decide⟩, strongPass_three, by decide,
    by decide, by decide⟩

theorem witness_RandomAnswerResumesEngine :
    waiting.blk.rngPending = true ∧ State.reset.blk.rngPending = false := by decide

theorem witness_DatapathMeetsItsArithmetic : 1 ≤ (1 : Dword).toNat := by decide

theorem witness_DecomposeOddIsTheOddPart : OddCandidate (3 : Dword).toNat := by unfold OddCandidate; decide

/-- The least and the largest number of halvings, and a loop that goes on (9 with 2). -/
theorem witness_RoundStaysWithinBounds :
    (OddCandidate (3 : Dword).toNat ∧ (1 : Dword).toNat % 2 = 1 ∧ (3 : Dword).toNat - 1 = (1 : Dword).toNat * 2 ^ 1) ∧
    (OddCandidate (0x8000000000000001 : Dword).toNat ∧
      (0x8000000000000001 : Dword).toNat - 1 = (1 : Dword).toNat * 2 ^ 63) ∧
    (OddCandidate (9 : Dword).toNat ∧ (9 : Dword).toNat - 1 = (1 : Dword).toNat * 2 ^ 3 ∧
      roundGoesOn 9 (roundLoop 9 2 { t := 1, y := modPowCore 2 1 9, prod := 0 }) = true) := by
  unfold OddCandidate
  decide

theorem witness_PrimePassesEveryRound : (3 : Dword).toNat.Prime ∧ 3 ≤ (3 : Dword).toNat ∧ 1 ≤ (1 : Dword).toNat ∧
    (1 : Dword).toNat ≤ (3 : Dword).toNat - 2 := ⟨Nat.prime_three, by decide, by decide, by decide⟩

theorem witness_FastPathsNeverRejectAPrime : (2 : Dword).toNat.Prime ∧ fastPath 2 = some true ∧
    fastPath 1 = some false ∧ fastPath 4 = some false ∧ fastPath 9 = some false :=
  ⟨Nat.prime_two, by decide, by decide, by decide, by decide⟩

theorem witness_PrimetestAcceptsEveryPrime : (running 0x04 0 0 3).blk.seq = .exec ∧ (running 0x04 0 0 3).blk.op = 0x04 ∧
    (running 0x04 0 0 3).blk.r = 0 ∧ (running 0x04 0 0 3).blk.sm.toNat.Prime ∧ 2 < (running 0x04 0 0 3).blk.sm.toNat ∧
    (List.replicate 19 (1 : Dword)).length = 19 ∧
    ∀ v ∈ List.replicate 19 (1 : Dword) ++ [1], 1 ≤ v.toNat ∧ v.toNat ≤ (running 0x04 0 0 3).blk.sm.toNat - 2 :=
  ⟨rfl, rfl, rfl, Nat.prime_three, by decide, by decide, fun v hv => by
    have hv1 : v = 1 := by simpa using hv
    subst hv1
    decide⟩

theorem witness_IssueThenEngineGivesTheResidue :
    (loaded 3 5 7).blk.seq = .idle ∧ (loaded 3 5 7).blk.opM ≠ 0 := by decide

theorem witness_ReservedOffsetsReadZeroIgnoreWrites :
    (0x3C ≤ 0x3C ∧ 0x3C ≤ 0xFC ∧ 0x3C % 4 = 0) ∧ (0x3C ≤ 0xFC ∧ 0xFC ≤ 0xFC ∧ 0xFC % 4 = 0) := by decide

/-- Just inside each edge: a word that starts 3 bytes below the window and reaches its first byte, a byte at its first
offset, and a word that starts at its last byte; a dword write inside. -/
theorem witness_MalformedAccessFaults : ∃ s : State,
    (0xFD < s.base + 0x100 ∧ s.base < 0xFD + Size.word.bytes ∧ ¬s.base ≤ 0xFD ∧
      s.base < 0xFD + (WriteData.word 0).size.bytes) ∧
    (s.base < 0x100 + Size.byte.bytes ∧ Size.byte ≠ .word ∧ (WriteData.byte 0).size ≠ .word) ∧
    (0x1FF < s.base + 0x100 ∧ s.base < 0x1FF + Size.word.bytes ∧ ¬(0x1FF - s.base) % 4 = 0) ∧
    (0x1F8 < s.base + 0x100 ∧ s.base < 0x1F8 + (WriteData.dword 0).size.bytes ∧ (WriteData.dword 0).size ≠ .word) :=
  ⟨{ State.reset with page := 1 }, by decide⟩

/-- A word that ends where the window begins, and one that begins where it ends. -/
theorem witness_OutsideAccessLeavesTheBlock : ∃ s : State, 0xFC + Size.word.bytes ≤ s.base ∧ s.base + 0x100 ≤ 0x200 ∧
    0xFC + (WriteData.word 0).size.bytes ≤ s.base := ⟨{ State.reset with page := 1 }, by decide, by decide, by decide⟩

theorem witness_LittleEndianLanes : 0x10 % 4 = 0 ∧ 3 < 4 := by decide

/-- Each of the three operands, with the state its clause names. -/
theorem witness_OperandHalvesInEitherOrder (s : State) (lo hi : Word) :
    (∃ u : State, 0x10 = 0x10 ∧ u = { s with blk := { s.blk with aLo := lo, aHi := hi } }) ∧
    (∃ u : State, 0x18 = 0x18 ∧ u = { s with blk := { s.blk with bLo := lo, bHi := hi } }) ∧
    (∃ u : State, 0x20 = 0x20 ∧ u = { s with blk := { s.blk with mLo := lo, mHi := hi } }) :=
  ⟨⟨_, rfl, rfl⟩, ⟨_, rfl, rfl⟩, ⟨_, rfl, rfl⟩⟩

theorem witness_CtrlWriteEffect : (0x7 : Word).getLsbD 2 = true ∧
    ((0x2 : Word).getLsbD 2 = false ∧ (0x2 : Word).getLsbD 1 = true ∧ waiting.blk.seq ≠ .idle) ∧
    ((0x1 : Word).getLsbD 2 = false ∧ (0x1 : Word).getLsbD 1 = false ∧ State.reset.blk.seq = .idle) := by decide

theorem witness_SoftResetIsTheResetInput : (0x4 : Word).getLsbD 2 = true := by decide

/-- A pending ERR and a pending DONE, each with IE set, and a step of each kind. -/
theorem witness_IrqFallsWhenCleared : StatusInv failed.blk ∧
    StatusInv (failed.mapBlock fun b => { b with err := false, errcode := 0, done := true }).blk ∧
    ((0x4 : Word).getLsbD 2 = true ∧ failed.blk.err = true ∧ failed.blk.irq = true ∧
      (blockAfter (step (failed.hostWrites 0x08 0x4))).isSome = true) ∧
    ((0x2 : Word).getLsbD 1 = true ∧ (blockAfter (step ((failed.mapBlock fun b =>
      { b with err := false, errcode := 0, done := true }).hostWrites 0x08 0x2))).isSome = true) ∧
    ((0x0 : Word).getLsbD 0 = false ∧ (blockAfter (step (failed.hostWrites 0x04 0x0))).isSome = true) ∧
    (failed.blk.seq = .idle ∧ (blockAfter (step (failed.hostWrites 0x0C 0x4))).map (·.seq) = some .exec) ∧
    (blockAfter (step (failed.withTurn .rst))).isSome = true :=
  ⟨statusInv_failed, ⟨by decide, by decide, by decide, by decide, by decide, by decide, by decide, by decide⟩,
    by decide, by decide, by decide, by decide, by decide⟩

theorem witness_StepKeepsStatusInvariant : StatusInv (running 0x02 4 14 23).blk ∧
    (blockAfter (step (running 0x02 4 14 23))).map (·.done) = some true := ⟨statusInv_running _ _ _ _, by decide⟩

theorem witness_StepKeepsCommandInvariant : StatusInv waiting.blk ∧ CommandInv waiting.blk ∧
    (blockAfter (step (waiting.withTurn (.random 1)))).map (·.seq) = some .exec :=
  ⟨statusInv_waiting, commandInv_waiting, by decide⟩

/-- A step of each kind that moves the sequencer. -/
theorem witness_SequencerTransitions :
    (blockAfter (step (State.reset.hostWrites 0x0C 0x4))).map (·.seq) = some .exec ∧
    (blockAfter (step (running 0x04 0 0 3))).map (·.seq) = some .rngwait ∧
    (blockAfter (step (waiting.withTurn (.random 1)))).map (·.seq) = some .exec ∧
    (blockAfter (step (running 0x02 4 14 23))).map (·.seq) = some .idle ∧
    (blockAfter (step (waiting.hostWrites 0x04 0x2))).map (·.seq) = some .idle ∧
    (blockAfter (step (waiting.withTurn .rst))).map (·.seq) = some .idle := by decide

theorem witness_ResultsChangeOnlyAtTermination :
    (blockAfter (step (running 0x02 4 14 23))).map (·.result) = some 10 := by decide

theorem witness_OverrunRisesAndFallsOnlyAsStated : waiting.blk.ovr = false ∧
    (blockAfter (step (waiting.hostWrites 0x0C 0x2))).map (·.ovr) = some true ∧
    (blockAfter (step ((waiting.mapBlock overrun).hostWrites 0x08 0x8))).map (·.ovr) = some false := by decide

theorem witness_OperandWriteCannotDisturbTheCommand : (0x10 ≤ 0x10 ∧ 0x10 % 4 = 0) ∧ (0x24 ≤ 0x24 ∧ 0x24 % 4 = 0) ∧
    (running 0x01 3 5 7).blk.seq = .exec ∧ ∃ i, decodeOpcode (running 0x01 3 5 7).blk.op = some i :=
  ⟨by decide, by decide, rfl, _, rfl⟩

theorem witness_AbortAndTerminationAreOrdered : (running 0x02 4 14 23).blk.seq = .exec ∧
    (0x2 : Word).getLsbD 0 = (running 0x02 4 14 23).blk.ie ∧ (0x2 : Word).getLsbD 1 = true ∧
    (0x2 : Word).getLsbD 2 = false ∧
    (blockAfter (step ((running 0x02 4 14 23).withTurn .engine))).map (·.seq) = some .idle := by decide

theorem witness_EngineTurnTerminatesOrRequests : StatusInv (running 0x02 4 14 23).blk ∧
    CommandInv (running 0x02 4 14 23).blk ∧ (running 0x02 4 14 23).blk.seq = .exec :=
  ⟨statusInv_running _ _ _ _, commandInv_modmul, rfl⟩

/-- An error with a new code, and an issue that ends with the very code that stood there. -/
theorem witness_ErrorsArePrecise :
    (StatusInv waiting.blk ∧ waiting.blk.errcode = 0 ∧
      (blockAfter (step (waiting.hostWrites 0x04 0x2))).map (fun b => (b.err, b.errcode)) = some (true, 5)) ∧
    (StatusInv failed.blk ∧ failed.blk.errcode = 1 ∧ WritesNext (failed.hostWrites 0x0C 0x2) 0x0C 0x2 ∧
      (blockAfter (step (failed.hostWrites 0x0C 0x2))).map (fun b => (b.err, b.errcode)) = some (true, 1)) :=
  ⟨⟨statusInv_waiting, rfl, by decide⟩, statusInv_failed, rfl, ⟨rfl, _, rfl⟩, by decide⟩

/-- An error at issue, and one in EXEC. -/
theorem witness_CommandsRaiseOnlyTheirErrors :
    ((loaded 7 9 0).blk.seq = .idle ∧ (blockAfter (exec .modmul (loaded 7 9 0))).map (·.err) = some true) ∧
    ((answered 97 3 96 1).blk.seq = .exec ∧ (answered 97 3 96 1).blk.err = false ∧
      (blockAfter (exec .primetest (answered 97 3 96 1))).map (·.err) = some true) := by decide

/-- Two machines that differ in every stale working register. -/
theorem witness_HiddenRegistersAreUnobservable : ∃ s s' : State, s ≠ s' ∧ StatusInv s.blk ∧
    SameToHost s.blk s'.blk ∧ s.page = s'.page ∧ s.program = s'.program ∧ s.reads = s'.reads ∧ s.turns = s'.turns :=
  ⟨State.reset, State.reset.mapBlock fun b => { b with
      op := 4, sa := 1, sb := 1, sm := 1, acc := 1, bp := 1, e := 1, prod := 1, n := 1, d := 1, t := 1, y := 1, a := 1,
      r := 1, rngLo := 1, rngHi := 1 },
    by decide, statusInv_reset,
    ⟨rfl, rfl, rfl, rfl, rfl, ⟨rfl, rfl, rfl⟩, ⟨rfl, rfl, rfl⟩, rfl, rfl, fun h => absurd rfl h, by decide,
      fun h => absurd rfl h, fun h => absurd rfl h, by decide⟩, rfl, rfl, rfl, rfl⟩

end Sys2Proof.Tests
end

/-! Proofs of the statements of 10_state.md: rules about the operations, then the statements by tier. -/


namespace Sys2Proof.Machine

/-! ### Rules: what each operation does, said once -/

/-! #### Register writes (R135, R138, R139) -/

section
variable {b : Block}

theorem writeCtrl_srst {v : Word} (h2 : v.getLsbD 2 = true) : writeCtrl v b = Block.reset := if_pos h2

theorem writeCtrl_abort {v : Word} (h2 : v.getLsbD 2 = false) (ha : v.getLsbD 1 = true ∧ b.seq ≠ .idle) :
    writeCtrl v b = raiseError .aborted { b with ie := v.getLsbD 0 } :=
  (if_neg (Bool.eq_false_iff.1 h2)).trans (if_pos ha)

theorem writeCtrl_enable {v : Word} (h2 : v.getLsbD 2 = false) (ha : ¬(v.getLsbD 1 = true ∧ b.seq ≠ .idle)) :
    writeCtrl v b = { b with ie := v.getLsbD 0 } :=
  (if_neg (Bool.eq_false_iff.1 h2)).trans (if_neg ha)

end

/-- Every effect of the write of a register that is not CMD. -/
inductive WriteOutcome (r : Reg) (v : Word) (b : Block) : Block → Prop
  | reset : r = .ctrl → v.getLsbD 2 = true → WriteOutcome r v b Block.reset
  | abort : r = .ctrl → v.getLsbD 1 = true → b.seq ≠ .idle →
      WriteOutcome r v b (raiseError .aborted { b with ie := v.getLsbD 0 })
  | enable : r = .ctrl → WriteOutcome r v b { b with ie := v.getLsbD 0 }
  | status : r = .status → WriteOutcome r v b (writeStatus v b)
  | operands (aLo aHi bLo bHi mLo mHi : Word) : r ≠ .ctrl → r ≠ .status →
      WriteOutcome r v b { b with aLo := aLo, aHi := aHi, bLo := bLo, bHi := bHi, mLo := mLo, mHi := mHi }

theorem writeReg_outcome (r : Reg) (v : Word) (b : Block) : WriteOutcome r v b (writeReg v b r) := by
  cases r with
  | ctrl =>
    change WriteOutcome .ctrl v b (writeCtrl v b)
    have ho := writeCtrl_cases v b
    generalize writeCtrl v b = c at ho ⊢
    cases ho with
    | reset h2 => exact .reset rfl h2
    | abort _ h1 hs => exact .abort rfl h1 hs
    | enable => exact .enable rfl
  | status => exact .status rfl
  | id | cmd | aLo | aHi | bLo | bHi | mLo | mHi | rLo | rHi | rounds | witLo | witHi =>
    exact .operands _ _ _ _ _ _ nofun nofun

/-! #### The agents' turns (R35, R116, R133) -/

/-- The engine's turn on a command in EXEC (R133). -/
theorem engineTurn_exec {s : State} {i : Instr} (hs : s.blk.seq = .exec) (hop : decodeOpcode s.blk.op = some i) :
    engineTurn s = exec i s := by simp [engineTurn, hs, hop]

/-- In IDLE and RNGWAIT the engine has no step (R35). -/
theorem engineTurn_of_ne_exec {s : State} (hs : s.blk.seq ≠ .exec) : engineTurn s = .next s := by
  unfold engineTurn
  split
  · contradiction
  · rfl
  · rfl

theorem answerWitness_pending (v : Dword) {b : Block} (h : b.rngPending = true) :
    answerWitness v b = { b with a := v, rngPending := false, seq := .exec } := if_pos h

theorem answerWitness_not_pending (v : Dword) {b : Block} (h : b.rngPending = false) : answerWitness v b = b :=
  if_neg (by simp [h])

/-! #### The commands -/

section
variable {b : Block}

/-! PRIMETEST in EXEC, one equation for each way through R114. -/

theorem computePart_begin (hr : b.r = 0) : computePart .primetest b = beginPrimetest b := if_pos hr

theorem computePart_round (hr : b.r ≠ 0) : computePart .primetest b = roundPrimetest b := if_neg hr

theorem computePart_fast {p : Bool} (hr : b.r = 0) (hf : fastPath b.sm = some p) :
    computePart .primetest b =
      finish { r := some (boolResult p), rounds := some 0, wit := some 0 } { b with n := b.sm } := by
  simp [computePart_begin hr, beginPrimetest, hf]

theorem computePart_first (hr : b.r = 0) (hf : fastPath b.sm = none) :
    computePart .primetest b =
      requestWitness 1 (b.sm - 2) { b with n := b.sm, d := decomposeOdd b.sm, r := 1 } := by
  simp [computePart_begin hr, beginPrimetest, hf]

theorem computePart_outside (hr : b.r ≠ 0) (hw : witnessOutside b.n b.a = true) :
    computePart .primetest b = raiseError .rngRange b := by
  simp [computePart_round hr, roundPrimetest, hw]

theorem computePart_composite (hr : b.r ≠ 0) (hw : witnessOutside b.n b.a = false)
    (hv : lastVerdict (runRound b) = .composite) :
    computePart .primetest b =
      finish { r := some 0, rounds := some b.r, wit := some b.a } (runRound b) := by
  simp [computePart_round hr, roundPrimetest, hw, hv]

theorem computePart_again (hr : b.r ≠ 0) (hw : witnessOutside b.n b.a = false)
    (hv : lastVerdict (runRound b) = .pass) (h20 : b.r.toNat < mrRounds) :
    computePart .primetest b = requestWitness 1 (b.n - 2) { runRound b with r := b.r + 1 } := by
  simp [computePart_round hr, roundPrimetest, hw, hv, h20]

theorem computePart_last (hr : b.r ≠ 0) (hw : witnessOutside b.n b.a = false)
    (hv : lastVerdict (runRound b) = .pass) (h20 : ¬b.r.toNat < mrRounds) :
    computePart .primetest b =
      finish { r := some 1, rounds := some (BitVec.ofNat 5 mrRounds), wit := some b.a } (runRound b) := by
  simp [computePart_round hr, roundPrimetest, hw, hv, h20]

end

theorem IssueOutcome.seq {i : Instr} {b c : Block} (h : IssueOutcome i b c) : c.seq = .idle ∨ c.seq = .exec := by
  cases h with
  | nop | modulusZero | candidateBad | witnessBad => exact .inl rfl
  | modulusGood | roundGood | primetest => exact .inr rfl

/-- The engine's step terminates, or, for a PRIMETEST only, requests a witness (R116, R133); a NOP has none. -/
theorem ComputeOutcome.seq {i : Instr} {b c : Block} (h : ComputeOutcome i b c) :
    c = b ∨ c.seq = .idle ∨ (c.seq = .rngwait ∧ i = .primetest) := by
  cases h with
  | nop => exact .inl rfl
  | modpow | modmul | mrround | fast | outside | composite | last => exact .inr (.inl rfl)
  | first hi | again hi => exact .inr (.inr ⟨rfl, hi⟩)

/-- The host reads the same R, ROUNDS and WIT of both blocks. -/
def SameResults (b c : Block) : Prop := c.result = b.result ∧ c.rounds = b.rounds ∧ c.witness = b.witness

theorem IssueOutcome.sameResults {i : Instr} {b c : Block} (h : IssueOutcome i b c) : SameResults b c := by
  cases h <;> exact ⟨rfl, rfl, rfl⟩

/-- Only a successful termination writes results (R132). -/
theorem ComputeOutcome.results {i : Instr} {b c : Block} (h : ComputeOutcome i b c) :
    SameResults b c ∨ (c.seq = .idle ∧ c.done = true) := by
  cases h with
  | nop | first | outside => exact .inl ⟨rfl, rfl, rfl⟩
  | again =>
    obtain ⟨_, _, _, _, _, _, hr⟩ := runRound_frame b
    rw [hr]
    exact .inl ⟨rfl, rfl, rfl⟩
  | modpow | modmul | mrround | fast | composite | last => exact .inr ⟨rfl, rfl⟩

/-- The registers that no command writes are the same in both blocks: the operands, IE and OVR. -/
structure SameHostRegs (b c : Block) : Prop where
  aLo : c.aLo = b.aLo
  aHi : c.aHi = b.aHi
  bLo : c.bLo = b.bLo
  bHi : c.bHi = b.bHi
  mLo : c.mLo = b.mLo
  mHi : c.mHi = b.mHi
  ie : c.ie = b.ie
  ovr : c.ovr = b.ovr

theorem IssueOutcome.sameHostRegs {i : Instr} {b c : Block} (h : IssueOutcome i b c) : SameHostRegs b c := by
  cases h <;> exact ⟨rfl, rfl, rfl, rfl, rfl, rfl, rfl, rfl⟩

theorem sameHostRegs_runRound (b : Block) : SameHostRegs b (runRound b) := by
  obtain ⟨acc, bp, e, t, y, prod, h⟩ := runRound_frame b
  rw [h]
  exact ⟨rfl, rfl, rfl, rfl, rfl, rfl, rfl, rfl⟩

theorem ComputeOutcome.sameHostRegs {i : Instr} {b c : Block} (h : ComputeOutcome i b c) : SameHostRegs b c := by
  cases h with
  | nop | modpow | modmul | fast | first | outside => exact ⟨rfl, rfl, rfl, rfl, rfl, rfl, rfl, rfl⟩
  | mrround x b1 _ hb1 =>
    have hround := sameHostRegs_runRound b1
    generalize runRound b1 = c at hround ⊢
    subst hb1
    exact { hround with }
  | composite | again | last =>
    have hround := sameHostRegs_runRound b
    generalize runRound b = c at hround ⊢
    exact { hround with }

theorem sameHostRegs_issue (i : Instr) (b : Block) : SameHostRegs b (issuePart i (beginCommand (opcode i) b)) :=
  { (issuePart_cases i (beginCommand (opcode i) b)).sameHostRegs with }

theorem sameHostRegs_compute (i : Instr) (b : Block) : SameHostRegs b (computePart i b) :=
  (computePart_cases i b).sameHostRegs

theorem sameHostRegs_commandPhase (i : Instr) (b : Block) : SameHostRegs b (commandPhase i b) := by
  cases hs : b.seq with
  | idle => rw [commandPhase_idle i hs]; exact sameHostRegs_issue i b
  | exec => rw [commandPhase_exec i hs]; exact sameHostRegs_compute i b
  | rngwait => rw [commandPhase_rngwait i hs]; exact ⟨rfl, rfl, rfl, rfl, rfl, rfl, rfl, rfl⟩

theorem roundRun_congr (n d : Dword) {p q : PowRegs} (h : p.acc = q.acc) :
    (roundRun n d p).t = (roundRun n d q).t ∧ (roundRun n d p).y = (roundRun n d q).y :=
  roundLoop_prod n 64 _ _ rfl h

theorem roundVerdict_congr (n : Dword) {p q : RoundRegs} (ht : p.t = q.t) (hy : p.y = q.y) :
    roundVerdict n p = roundVerdict n q := by
  obtain ⟨t, y, prod⟩ := p
  obtain ⟨_, _, prod'⟩ := q
  subst ht hy
  rfl

/-- The verdict does not depend on the product register, which a round only writes (R111). -/
theorem lastVerdict_runRound_congr {b c : Block} (hn : b.n = c.n) (hd : b.d = c.d) (ha : b.a = c.a) :
    lastVerdict (runRound b) = lastVerdict (runRound c) := by
  rw [lastVerdict_runRound, lastVerdict_runRound, hn, hd, ha]
  obtain ⟨ht, hy⟩ := roundRun_congr c.n c.d (powRun_acc_prod c.a c.d c.n b.prod c.prod)
  exact roundVerdict_congr c.n ht hy

/-! #### STATUS and reads (R24 to R29, R58, R79) -/

theorem busy_iff (b : Block) : b.busy = true ↔ b.seq ≠ .idle := decide_eq_true_iff

theorem statusWord_busy (b : Block) : b.statusWord.getLsbD 0 = b.busy := by
  simp only [Block.statusWord, BitVec.getLsbD_append, BitVec.getLsbD_ofBool]
  rfl

/-- Bits 1 to 7 of STATUS: the flags, RNGWAIT, and three zeros (R25 to R28). -/
theorem statusWord_flags (b : Block) :
    b.statusWord.getLsbD 1 = b.done ∧ b.statusWord.getLsbD 2 = b.err ∧ b.statusWord.getLsbD 3 = b.ovr ∧
    b.statusWord.getLsbD 4 = b.rngwait ∧ b.statusWord.getLsbD 5 = false ∧ b.statusWord.getLsbD 6 = false ∧
    b.statusWord.getLsbD 7 = false := by
  simp only [Block.statusWord, BitVec.getLsbD_append, BitVec.getLsbD_ofBool]
  exact ⟨rfl, rfl, rfl, rfl, rfl, rfl, rfl⟩

/-- From bit 8 upwards STATUS is ERRCODE (R29). -/
theorem statusWord_errcode (b : Block) (i : Nat) : b.statusWord.getLsbD (8 + i) = b.errcode.getLsbD i := by
  simp only [Block.statusWord, BitVec.getLsbD_append]
  iterate 6 rw [if_neg (by omega)]
  rw [show 8 + i - 1 - 1 - 1 - 1 - 1 - 3 = i by omega]
  split
  · rfl
  · rw [BitVec.getLsbD_of_ge b.errcode i (by omega)]
    simp

/-- A read of a named register records its value and leaves all else (R58). -/
theorem step_reads_reg (s : State) (r : Reg) :
    step (s.hostReads r.offset) = .next (s.record r.offset (readReg s.blk r)) := by
  rw [step_hostReads s (offset_wf r).1 (offset_wf r).2, readWindow, regAt_offset]

/-- A `poll` that reads BUSY as 0 lets the host go on (R79). -/
theorem hostPoll_idle (rest : List HostOp) {s : State} (h : s.blk.seq = .idle) :
    hostPoll rest s = { s.record Reg.status.offset s.blk.statusWord with program := rest } :=
  if_neg (by rw [readReg, statusWord_busy, busy_iff]; exact not_not_intro h)

/-- A `poll` that reads BUSY as 1 stays the host's next operation (R79). -/
theorem hostPoll_busy (rest : List HostOp) {s : State} (h : s.blk.seq ≠ .idle) :
    hostPoll rest s = s.record Reg.status.offset s.blk.statusWord :=
  if_pos (by rw [readReg, statusWord_busy, busy_iff]; exact h)

/-! ### O47: the status invariants (R46) -/

theorem ErrorCode.code_ne_zero (c : ErrorCode) : c.code ≠ 0 := by cases c <;> decide

theorem ErrorCode.code_le (c : ErrorCode) : c.code.toNat ≤ 6 := by cases c <;> decide

/-- What the status registers and the counters hold from an issue to its termination (R46). -/
structure FlagsClear (b : Block) : Prop where
  done : b.done = false
  err : b.err = false
  errcode : b.errcode = 0
  rounds : b.rounds.toNat ≤ 20
  counter : b.r.toNat ≤ 20

theorem StatusInv.flagsClear {b : Block} (h : StatusInv b) (hs : b.seq ≠ .idle) : FlagsClear b :=
  have ⟨hdone, herr⟩ := h.busy_clear hs
  ⟨hdone, herr, h.err_code.1 herr, h.rounds_range, h.counter_range⟩

theorem StatusInv.not_pending {b : Block} (h : StatusInv b) (hs : b.seq ≠ .rngwait) : b.rngPending = false :=
  Bool.eq_false_iff.2 fun hp => hs (h.pending.1 hp)

theorem StatusInv.flagsClear_beginCommand {b : Block} (h : StatusInv b) (opc : BitVec 8) :
    FlagsClear (beginCommand opc b) :=
  ⟨rfl, rfl, rfl, h.rounds_range, h.counter_range⟩

theorem FlagsClear.after_runRound {b : Block} (h : FlagsClear b) : FlagsClear (runRound b) :=
  ⟨h.done, h.err, h.errcode, h.rounds, h.counter⟩

/-- A successful termination leaves DONE alone set (R132). -/
theorem FlagsClear.statusInv_finish {b : Block} {res : Results} (h : FlagsClear b)
    (hr : (res.rounds.getD b.rounds).toNat ≤ 20) : StatusInv (finish res b) where
  busy_clear hs := absurd rfl hs
  not_both hb := absurd (h.err.symm.trans hb.2) (by decide)
  waiting hs := nomatch hs
  err_code := iff_of_true h.err h.errcode
  code_range := h.errcode ▸ Nat.zero_le 6
  rounds_range := hr
  counter_range := h.counter
  pending := iff_of_false (nomatch ·) (nomatch ·)

/-- An error termination leaves ERR alone set, with a code from 1 to 6 (R145). -/
theorem FlagsClear.statusInv_raiseError {b : Block} {c : ErrorCode} (h : FlagsClear b) :
    StatusInv (raiseError c b) where
  busy_clear hs := absurd rfl hs
  not_both hb := absurd (h.done.symm.trans hb.1) (by decide)
  waiting hs := nomatch hs
  err_code := iff_of_false (nomatch ·) (ErrorCode.code_ne_zero c)
  code_range := c.code_le
  rounds_range := h.rounds
  counter_range := h.counter
  pending := iff_of_false (nomatch ·) (nomatch ·)

/-- An engine that runs or waits, with the flags clear, meets R46. -/
theorem FlagsClear.statusInv {b : Block} (h : FlagsClear b) (hw : b.seq = .rngwait → b.op = 0x04)
    (hp : b.rngPending = true ↔ b.seq = .rngwait) : StatusInv b where
  busy_clear _ := ⟨h.done, h.err⟩
  not_both hb := absurd (h.err.symm.trans hb.2) (by decide)
  waiting := hw
  err_code := iff_of_true h.err h.errcode
  code_range := h.errcode ▸ Nat.zero_le 6
  rounds_range := h.rounds
  counter_range := h.counter
  pending := hp

theorem FlagsClear.statusInv_startExec {b : Block} (h : FlagsClear b) (hp : b.rngPending = false) :
    StatusInv (startExec b) :=
  FlagsClear.statusInv ⟨h.done, h.err, h.errcode, h.rounds, h.counter⟩ (nomatch ·)
    (iff_of_false (fun ht => absurd (hp.symm.trans ht) (by decide)) (nomatch ·))

theorem FlagsClear.statusInv_requestWitness {b : Block} {lo hi : Dword} (h : FlagsClear b) (hop : b.op = 0x04) :
    StatusInv (requestWitness lo hi b) :=
  FlagsClear.statusInv ⟨h.done, h.err, h.errcode, h.rounds, h.counter⟩ (fun _ => hop) (iff_of_true rfl rfl)

theorem statusInv_reset : StatusInv Block.reset := by constructor <;> decide

theorem IssueOutcome.statusInv {i : Instr} {b c : Block} (ho : IssueOutcome i b c) (hc : FlagsClear b)
    (hp : b.rngPending = false) : StatusInv c := by
  cases ho with
  | nop => exact hc.statusInv_finish hc.rounds
  | modulusZero | candidateBad | witnessBad => exact hc.statusInv_raiseError
  | modulusGood | roundGood => exact hc.statusInv_startExec hp
  | primetest => exact FlagsClear.statusInv_startExec { hc with counter := Nat.zero_le 20 } hp

theorem ComputeOutcome.statusInv {i : Instr} {b c : Block} (ho : ComputeOutcome i b c) (h : StatusInv b)
    (hs : b.seq = .exec) (hop : b.op = opcode i) : StatusInv c := by
  have hc := h.flagsClear (by simp [hs])
  cases ho with
  | nop => exact h
  | modpow | modmul =>
    exact FlagsClear.statusInv_finish ⟨hc.done, hc.err, hc.errcode, hc.rounds, hc.counter⟩ hc.rounds
  | mrround x b1 hi hb1 =>
    subst hb1
    exact FlagsClear.statusInv_finish
      (FlagsClear.after_runRound ⟨hc.done, hc.err, hc.errcode, hc.rounds, hc.counter⟩)
      (by decide : (1 : BitVec 5).toNat ≤ 20)
  | fast => exact FlagsClear.statusInv_finish ⟨hc.done, hc.err, hc.errcode, hc.rounds, hc.counter⟩ (Nat.zero_le 20)
  | first hi =>
    subst hi
    exact FlagsClear.statusInv_requestWitness { hc with counter := (by decide : (1 : BitVec 5).toNat ≤ 20) } hop
  | outside => exact hc.statusInv_raiseError
  | composite => exact hc.after_runRound.statusInv_finish hc.counter
  | again hi _ hlt =>
    subst hi
    have hr : (b.r + 1).toNat ≤ 20 := by
      rw [BitVec.toNat_add]
      exact (Nat.mod_le _ _).trans hlt
    exact FlagsClear.statusInv_requestWitness { hc with counter := hr } hop
  | last => exact hc.after_runRound.statusInv_finish (by decide : (20 : BitVec 5).toNat ≤ 20)

/-- Clearing ERR together with ERRCODE, and clearing DONE, keeps R46. -/
theorem statusInv_writeStatus {b : Block} (h : StatusInv b) (v : Word) : StatusInv (writeStatus v b) where
  busy_clear hs := by simp [writeStatus, h.busy_clear hs]
  not_both hb := h.not_both ⟨Bool.and_elim_left hb.1, Bool.and_elim_left hb.2⟩
  waiting := h.waiting
  err_code := by
    simp only [writeStatus]
    cases v.getLsbD 2 <;> simp [h.err_code]
  code_range := by
    simp only [writeStatus]
    cases v.getLsbD 2 <;> simp [h.code_range]
  rounds_range := h.rounds_range
  counter_range := h.counter_range
  pending := h.pending

theorem WriteOutcome.statusInv {r : Reg} {v : Word} {b c : Block} (ho : WriteOutcome r v b c) (h : StatusInv b) :
    StatusInv c := by
  cases ho with
  | reset => exact statusInv_reset
  | abort _ _ hs =>
    have hc := h.flagsClear hs
    exact FlagsClear.statusInv_raiseError ⟨hc.done, hc.err, hc.errcode, hc.rounds, hc.counter⟩
  | enable => exact { h with }
  | status => exact statusInv_writeStatus h v
  | operands => exact { h with }

/-- The answer resumes a PRIMETEST with the flags clear and the request gone (R116). -/
theorem statusInv_answered {b : Block} (h : StatusInv b) (v : Dword) (hp : b.rngPending = true) :
    StatusInv { b with a := v, rngPending := false, seq := .exec } := by
  have hc := h.flagsClear (by simp [h.pending.1 hp])
  exact FlagsClear.statusInv ⟨hc.done, hc.err, hc.errcode, hc.rounds, hc.counter⟩ (nomatch ·)
    (iff_of_false (nomatch ·) (nomatch ·))

theorem BlockStep.statusInv {s : State} {c : Block} (hstep : BlockStep s c) (h : StatusInv s.blk) : StatusInv c := by
  cases hstep with
  | unchanged => exact h
  | issue i v hs =>
    exact (issuePart_cases i _).statusInv (h.flagsClear_beginCommand _) (h.not_pending (by simp [hs]))
  | illegal =>
    exact FlagsClear.statusInv_raiseError (b := clearFlags s.blk) ⟨rfl, rfl, rfl, h.rounds_range, h.counter_range⟩
  | overrun => exact { h with }
  | write r v => exact (writeReg_outcome r v _).statusInv h
  | engine i _ hs hop => exact (computePart_cases i _).statusInv h hs hop
  | answer v _ hp => exact statusInv_answered h v hp
  | reset => exact statusInv_reset

/-- Settles O47: each way a step changes the block keeps the invariants. -/
theorem stepKeepsStatusInvariant : Obligations.StepKeepsStatusInvariant := by
  intro s t h hstep
  exact (step_cases hstep).1.statusInv h

/-! ### O49: the sequencer (R35) -/

/-- Settles O49: each way a step changes the block either leaves `seq` or is one of the named transitions. -/
theorem sequencerTransitions : Obligations.SequencerTransitions := by
  intro s t hinv hstep hne
  have hc := (step_cases hstep).1
  generalize t.blk = c at hc hne ⊢
  cases hc with
  | unchanged | overrun => exact absurd rfl hne
  | illegal _ hs => exact absurd hs.symm hne
  | issue i v hs hw =>
    obtain h | h := (issuePart_cases i (beginCommand (opcode i) s.blk)).seq
    · exact absurd (h.trans hs.symm) hne
    · exact .inl ⟨hs, h, v, hw⟩
  | write r v _ hw =>
    have ho := writeReg_outcome r v s.blk
    generalize writeReg v s.blk r = c at ho hne ⊢
    cases ho with
    | reset hr h2 => exact .inr (.inr (.inr (.inr (.inr ⟨hne.symm, rfl, .inr ⟨v, hr ▸ hw, h2⟩⟩))))
    | abort hr h1 hs => subst hr; exact .inr (.inr (.inr (.inr (.inl ⟨hs, rfl, v, hw, h1⟩))))
    | enable | status | operands => exact absurd rfl hne
  | engine i hturn hs hop =>
    obtain h | h | ⟨h, rfl⟩ := (computePart_cases i s.blk).seq
    · exact absurd (congrArg Block.seq h) hne
    · exact .inr (.inr (.inr (.inl ⟨hs, h, hturn⟩)))
    · exact .inr (.inl ⟨hs, h, hturn, hop⟩)
  | answer v hturn hp => exact .inr (.inr (.inl ⟨hinv.pending.1 hp, rfl, v, hturn⟩))
  | reset hturn => exact .inr (.inr (.inr (.inr (.inr ⟨hne.symm, rfl, .inl hturn⟩))))

/-! ### O59: what the host cannot see (R36 to R38, U16) -/

/-- `b` with every register cleared that no read, no port and no turn shows. -/
def eraseHidden (b : Block) : Block :=
  { b with op := 0, sa := 0, sb := 0, sm := 0, acc := 0, bp := 0, e := 0, prod := 0, n := 0, d := 0, t := 0, y := 0,
           a := 0, r := 0, rngLo := 0, rngHi := 0 }

/-- The blocks differ in hidden registers at most. -/
def SameVisible (b c : Block) : Prop := eraseHidden b = eraseHidden c

/-- The blocks agree on the hidden registers that the running command and the pending request still read. -/
structure StillRead (b c : Block) : Prop where
  running : b.seq ≠ .idle → b.op = c.op ∧ b.sa = c.sa ∧ b.sb = c.sb ∧ b.sm = c.sm
  request : b.rngPending = true → b.rngLo = c.rngLo ∧ b.rngHi = c.rngHi
  position : b.seq ≠ .idle → b.op = 0x04 → b.r = c.r
  candidate : b.seq ≠ .idle → b.op = 0x04 → b.r ≠ 0 → b.n = c.n ∧ b.d = c.d
  answered : b.seq = .exec → b.op = 0x04 → b.r ≠ 0 → b.a = c.a

section
variable {b c : Block}

theorem SameVisible.map {α : Type} (hv : SameVisible b c) (f : Block → α) : f (eraseHidden b) = f (eraseHidden c) :=
  congrArg f hv

theorem SameToHost.sameVisible (h : SameToHost b c) : SameVisible b c := by
  obtain ⟨hA, hB, hM⟩ := h.operands
  obtain ⟨hR, hrounds, hW⟩ := h.results
  obtain ⟨haHi, haLo⟩ := join_inj hA
  obtain ⟨hbHi, hbLo⟩ := join_inj hB
  obtain ⟨hmHi, hmLo⟩ := join_inj hM
  obtain ⟨hrHi, hrLo⟩ := join_inj hR
  obtain ⟨hwHi, hwLo⟩ := join_inj hW
  simp only [SameVisible, eraseHidden, h.ie, h.done, h.err, h.ovr, h.errcode, h.seq, h.pending, haHi, haLo, hbHi, hbLo,
    hmHi, hmLo, hrHi, hrLo, hrounds, hwHi, hwLo]

theorem SameToHost.stillRead (h : SameToHost b c) : StillRead b c :=
  ⟨h.running, h.request, h.position, h.candidate, h.answered⟩

theorem SameVisible.sameToHost (hv : SameVisible b c) (h : StillRead b c) : SameToHost b c where
  ie := hv.map Block.ie
  done := hv.map Block.done
  err := hv.map Block.err
  ovr := hv.map Block.ovr
  errcode := hv.map Block.errcode
  operands := ⟨hv.map Block.opA, hv.map Block.opB, hv.map Block.opM⟩
  results := ⟨hv.map Block.result, hv.map Block.rounds, hv.map Block.witness⟩
  seq := hv.map Block.seq
  pending := hv.map Block.rngPending
  running := h.running
  request := h.request
  position := h.position
  candidate := h.candidate
  answered := h.answered

/-- An idle block without a request still reads nothing. -/
theorem SameVisible.sameToHost_of_idle (hv : SameVisible b c) (hs : b.seq = .idle) (hp : b.rngPending = false) :
    SameToHost b c :=
  hv.sameToHost
    { running hb := absurd hs hb
      request h := nomatch hp.symm.trans h
      position hb := absurd hs hb
      candidate hb := absurd hs hb
      answered h := nomatch hs.symm.trans h }

theorem SameToHost.refl (b : Block) : SameToHost b b :=
  SameVisible.sameToHost rfl
    { running _ := ⟨rfl, rfl, rfl, rfl⟩
      request _ := ⟨rfl, rfl⟩
      position _ _ := rfl
      candidate _ _ _ := ⟨rfl, rfl⟩
      answered _ _ _ := rfl }

/-! #### The shared operations on such blocks -/

theorem SameVisible.finish {res res' : Results} (hv : SameVisible b c) (hres : res = res') :
    SameToHost (finish res b) (finish res' c) := by
  subst hres
  exact SameVisible.sameToHost_of_idle (hv.map (Machine.finish res)) rfl rfl

theorem SameVisible.raiseError {code : ErrorCode} (hv : SameVisible b c) :
    SameToHost (raiseError code b) (raiseError code c) :=
  SameVisible.sameToHost_of_idle (hv.map (Machine.raiseError code)) rfl rfl

theorem SameVisible.runRound (hv : SameVisible b c) : SameVisible (runRound b) (runRound c) := by
  obtain ⟨_, _, _, _, _, _, hb⟩ := runRound_frame b
  obtain ⟨_, _, _, _, _, _, hc⟩ := runRound_frame c
  rw [hb, hc]
  exact hv

/-- A started command that is no PRIMETEST in its rounds reads its snapshot only. -/
theorem SameVisible.startExec (hv : SameVisible b c)
    (hrun : b.op = c.op ∧ b.sa = c.sa ∧ b.sb = c.sb ∧ b.sm = c.sm)
    (hreq : b.rngPending = true → b.rngLo = c.rngLo ∧ b.rngHi = c.rngHi)
    (hr : b.op = 0x04 → b.r = 0 ∧ c.r = 0) :
    SameToHost (startExec b) (startExec c) :=
  SameVisible.sameToHost (hv.map Machine.startExec)
    { running _ := hrun
      request := hreq
      position _ hop := (hr hop).1.trans (hr hop).2.symm
      candidate _ hop h := absurd (hr hop).1 h
      answered _ hop h := absurd (hr hop).1 h }

/-- A PRIMETEST that waits reads its snapshot, its candidate and its place in the loop. -/
theorem SameVisible.requestWitness {lo hi lo' hi' : Dword} (hv : SameVisible b c) (hlo : lo = lo') (hhi : hi = hi')
    (hrun : b.op = c.op ∧ b.sa = c.sa ∧ b.sb = c.sb ∧ b.sm = c.sm)
    (hr : b.r = c.r) (hn : b.n = c.n) (hd : b.d = c.d) :
    SameToHost (requestWitness lo hi b) (requestWitness lo' hi' c) :=
  SameVisible.sameToHost (hv.map (Machine.requestWitness 0 0))
    { running _ := hrun
      request _ := ⟨hlo, hhi⟩
      position _ _ := hr
      candidate _ _ _ := ⟨hn, hd⟩
      answered h := nomatch h }

/-- The candidate, its odd part, the witness and the place in the loop are hidden. -/
theorem SameVisible.setTest (hv : SameVisible b c) (n d a n' d' a' : Dword) (r r' : BitVec 5) :
    SameVisible { b with n := n, d := d, a := a, r := r } { c with n := n', d := d', a := a', r := r' } := hv

/-! #### A command's two parts -/

theorem SameToHost.issue (h : SameToHost b c) (i : Instr) :
    SameToHost (issuePart i (beginCommand (opcode i) b)) (issuePart i (beginCommand (opcode i) c)) := by
  have hv : SameVisible (beginCommand (opcode i) b) (beginCommand (opcode i) c) :=
    h.sameVisible.map fun x => eraseHidden (beginCommand (opcode i) x)
  obtain ⟨hA, hB, hM⟩ := h.operands
  have hsa : (beginCommand (opcode i) b).sa = (beginCommand (opcode i) c).sa := hA
  have hsm : (beginCommand (opcode i) b).sm = (beginCommand (opcode i) c).sm := hM
  have hrun : opcode i = opcode i ∧ b.opA = c.opA ∧ b.opB = c.opB ∧ b.opM = c.opM := ⟨rfl, hA, hB, hM⟩
  cases i with
  | nop => exact hv.finish rfl
  | modpow | modmul =>
    simp only [issuePart, issueModulus, hsm]
    split
    · exact hv.raiseError
    · exact hv.startExec hrun h.request (nomatch ·)
  | mrround =>
    simp only [issuePart, issueMrround, hsm, hsa]
    split
    · exact hv.raiseError
    · split
      · exact hv.raiseError
      · exact hv.startExec hrun h.request (nomatch ·)
  | primetest =>
    exact SameVisible.startExec (b := { beginCommand 0x04 b with r := 0 }) hv hrun h.request fun _ => ⟨rfl, rfl⟩

/-- A PRIMETEST's step reads its place, its snapshot before the rounds, and in a round its candidate and witness. -/
theorem SameToHost.computePrimetest (h : SameToHost b c) (hs : b.seq = .exec) (hop : b.op = 0x04) :
    SameToHost (computePart .primetest b) (computePart .primetest c) := by
  have hv := h.sameVisible
  have hbusy : b.seq ≠ .idle := by simp [hs]
  have hrun := h.running hbusy
  have hsm := hrun.2.2.2
  have hr := h.position hbusy hop
  by_cases hr0 : b.r = 0
  · have hr0' : c.r = 0 := hr ▸ hr0
    cases hf : fastPath b.sm with
    | some p =>
      rw [computePart_fast hr0 hf, computePart_fast hr0' (hsm ▸ hf)]
      exact (hv.setTest _ _ _ _ _ _ _ _).finish rfl
    | none =>
      rw [computePart_first hr0 hf, computePart_first hr0' (hsm ▸ hf)]
      exact (hv.setTest _ _ _ _ _ _ _ _).requestWitness rfl (by rw [hsm]) hrun rfl hsm (congrArg decomposeOdd hsm)
  · have hr0' : c.r ≠ 0 := hr ▸ hr0
    obtain ⟨hn, hd⟩ := h.candidate hbusy hop hr0
    have ha := h.answered hs hop hr0
    have hverdict := lastVerdict_runRound_congr hn hd ha
    cases hw : witnessOutside b.n b.a with
    | true =>
      rw [computePart_outside hr0 hw, computePart_outside hr0' (hn ▸ ha ▸ hw)]
      exact hv.raiseError
    | false =>
      have hw' : witnessOutside c.n c.a = false := hn ▸ ha ▸ hw
      cases hp : lastVerdict (Machine.runRound b) with
      | composite =>
        rw [computePart_composite hr0 hw hp, computePart_composite hr0' hw' (hverdict ▸ hp)]
        exact hv.runRound.finish (by rw [hr, ha])
      | pass =>
        by_cases h20 : b.r.toNat < mrRounds
        · rw [computePart_again hr0 hw hp h20, computePart_again hr0' hw' (hverdict ▸ hp) (hr ▸ h20)]
          exact (hv.runRound.setTest _ _ _ _ _ _ _ _).requestWitness rfl (by rw [hn]) hrun (by rw [hr]) hn hd
        · rw [computePart_last hr0 hw hp h20, computePart_last hr0' hw' (hverdict ▸ hp) (hr ▸ h20)]
          exact hv.runRound.finish (by rw [ha])

theorem SameToHost.compute (h : SameToHost b c) {i : Instr} (hs : b.seq = .exec) (hop : b.op = opcode i) :
    SameToHost (computePart i b) (computePart i c) := by
  have hv := h.sameVisible
  obtain ⟨-, hsa, hsb, hsm⟩ := h.running (by simp [hs])
  cases i with
  | nop => exact h
  | modpow =>
    have hacc : (powRun b.sa b.sb b.sm b.prod).acc = (powRun c.sa c.sb c.sm c.prod).acc := by
      rw [hsa, hsb, hsm, powRun_acc_prod]
    exact SameVisible.finish hv (by rw [hacc])
  | modmul => exact SameVisible.finish hv (by rw [hsa, hsb, hsm])
  | mrround =>
    have hverdict := lastVerdict_runRound_congr (b := { b with n := b.sm, d := decomposeOdd b.sm, a := b.sa })
      (c := { c with n := c.sm, d := decomposeOdd c.sm, a := c.sa }) hsm (congrArg decomposeOdd hsm) hsa
    exact (hv.setTest _ _ _ _ _ _ _ _).runRound.finish (by rw [hverdict, hsa])
  | primetest => exact h.computePrimetest hs hop

/-! #### The other steps -/

theorem SameToHost.answer (h : SameToHost b c) (hinv : StatusInv b) (v : Dword) :
    SameToHost (answerWitness v b) (answerWitness v c) := by
  cases hp : b.rngPending with
  | false => rwa [answerWitness_not_pending v hp, answerWitness_not_pending v (h.pending ▸ hp)]
  | true =>
    have hbusy : b.seq ≠ .idle := by simp [hinv.pending.1 hp]
    rw [answerWitness_pending v hp, answerWitness_pending v (h.pending ▸ hp)]
    exact SameVisible.sameToHost (h.sameVisible.map fun x => ({ x with rngPending := false, seq := .exec } : Block))
      { running _ := h.running hbusy
        request h := nomatch h
        position _ := h.position hbusy
        candidate _ := h.candidate hbusy
        answered _ _ _ := rfl }

theorem SameToHost.writeCtrl (h : SameToHost b c) (v : Word) : SameToHost (writeCtrl v b) (writeCtrl v c) := by
  have hset : SameToHost { b with ie := v.getLsbD 0 } { c with ie := v.getLsbD 0 } := { h with ie := rfl }
  cases h2 : v.getLsbD 2 with
  | true => rw [writeCtrl_srst h2, writeCtrl_srst h2]; exact .refl _
  | false =>
    by_cases ha : v.getLsbD 1 = true ∧ b.seq ≠ .idle
    · rw [writeCtrl_abort h2 ha, writeCtrl_abort h2 (h.seq ▸ ha)]
      exact hset.sameVisible.raiseError
    · rw [writeCtrl_enable h2 ha, writeCtrl_enable h2 (h.seq ▸ ha)]
      exact hset

/-- Every register write but CTRL's leaves the hidden registers and the sequencer, and reads none of them. -/
theorem SameToHost.writeReg (h : SameToHost b c) (v : Word) (r : Reg) :
    SameToHost (writeReg v b r) (writeReg v c r) := by
  have hv := h.sameVisible.map fun x => eraseHidden (Machine.writeReg v x r)
  cases r with
  | ctrl => exact h.writeCtrl v
  | id | cmd | status | aLo | aHi | bLo | bHi | mLo | mHi | rLo | rHi | rounds | witLo | witHi =>
    exact SameVisible.sameToHost hv { h.stillRead with }

theorem SameToHost.readReg (h : SameToHost b c) (r : Reg) : readReg b r = readReg c r := by
  have hr := h.sameVisible.map (Machine.readReg · r)
  cases r <;> exact hr

theorem SameToHost.readWindow (h : SameToHost b c) (off : Nat) : readWindow b off = readWindow c off := by
  unfold Machine.readWindow
  split
  · exact h.readReg _
  · rfl

end

/-! #### The same step of two machines -/

/-- The machines differ in stale hidden registers at most. -/
structure SameState (s s' : State) : Prop where
  blk : SameToHost s.blk s'.blk
  page : s.page = s'.page
  program : s.program = s'.program
  reads : s.reads = s'.reads
  turns : s.turns = s'.turns

/-- The same fault, the same refusal, or next states that agree. -/
inductive SameOutcome : Host.Outcome State Fault Refusal → Host.Outcome State Fault Refusal → Prop
  | next {t t' : State} : SameState t t' → SameOutcome (.next t) (.next t')
  | fault (f : Fault) : SameOutcome (.fault f) (.fault f)
  | refused (f : Refusal) : SameOutcome (.refused f) (.refused f)

section
variable {s s' : State} (h : SameState s s')
include h

theorem SameState.setBlock {b b' : Block} (hb : SameToHost b b') :
    SameState { s with blk := b } { s' with blk := b' } :=
  ⟨hb, h.page, h.program, h.reads, h.turns⟩

theorem SameState.setProgram (rest : List HostOp) :
    SameState { s with program := rest } { s' with program := rest } :=
  ⟨h.blk, h.page, rfl, h.reads, h.turns⟩

theorem SameState.dropTurn : SameState s.dropTurn s'.dropTurn :=
  ⟨h.blk, h.page, h.program, h.reads, congrArg List.tail h.turns⟩

theorem SameState.record (off : Nat) {v v' : Word} (hv : v = v') : SameState (s.record off v) (s'.record off v') :=
  ⟨h.blk, h.page, h.program, congrArg₂ (fun l w => l ++ [(off, w)]) h.reads hv, h.turns⟩

theorem sameOutcome_commandWrite (v : Word) : SameOutcome (commandWrite v s) (commandWrite v s') := by
  by_cases hs : s.blk.seq = .idle
  · have hs' : s'.blk.seq = .idle := h.blk.seq ▸ hs
    cases hd : decodeWord v with
    | command i =>
      rw [commandWrite_idle hs hd, commandWrite_idle hs' hd, exec_atIssue i hs, exec_atIssue i hs']
      exact .next (h.setBlock (h.blk.issue i))
    | reject w =>
      rw [commandWrite_illegal hs hd, commandWrite_illegal hs' hd]
      exact .next (h.setBlock (SameVisible.raiseError (h.blk.sameVisible.map clearFlags)))
  · have hs' : s'.blk.seq ≠ .idle := h.blk.seq ▸ hs
    rw [commandWrite_busy v hs, commandWrite_busy v hs']
    exact .next (h.setBlock { h.blk with ovr := rfl })

theorem sameOutcome_writeWindow (off : Nat) (v : Word) : SameOutcome (writeWindow off v s) (writeWindow off v s') := by
  unfold writeWindow
  split
  · exact sameOutcome_commandWrite h v
  · exact .next (h.setBlock (h.blk.writeReg v _))
  · exact .next h

theorem sameOutcome_hostAccess (acc : Access) : SameOutcome (hostAccess acc s) (hostAccess acc s') := by
  have hbase : s.base = s'.base := congrArg (0x100 * ·) h.page
  unfold hostAccess
  rw [← hbase]
  split
  · exact .next h
  · exact .fault _
  · exact .next (h.record _ (h.blk.readWindow _))
  · exact sameOutcome_writeWindow h _ _

theorem sameState_hostPoll (rest : List HostOp) : SameState (hostPoll rest s) (hostPoll rest s') := by
  have hr := h.record Reg.status.offset (h.blk.readReg .status)
  by_cases hs : s.blk.seq = .idle
  · rw [hostPoll_idle rest hs, hostPoll_idle rest (h.blk.seq ▸ hs)]
    exact hr.setProgram rest
  · rw [hostPoll_busy rest hs, hostPoll_busy rest (h.blk.seq ▸ hs)]
    exact hr

theorem sameOutcome_hostTurn : SameOutcome (hostTurn s) (hostTurn s') := by
  unfold hostTurn
  rw [← h.program]
  split
  · exact .next h
  · exact sameOutcome_hostAccess (h.setProgram _) _
  · exact .next (sameState_hostPoll h _)

theorem sameOutcome_engineTurn : SameOutcome (engineTurn s) (engineTurn s') := by
  by_cases hs : s.blk.seq = .exec
  · have hs' : s'.blk.seq = .exec := h.blk.seq ▸ hs
    have hop := (h.blk.running (by simp [hs])).1
    cases hi : decodeOpcode s.blk.op with
    | some i =>
      rw [engineTurn_exec hs hi, engineTurn_exec hs' (hop ▸ hi), exec_inExec i hs, exec_inExec i hs']
      exact .next (h.setBlock (h.blk.compute hs (decodeOpcode_eq hi)))
    | none =>
      have hi' : decodeOpcode s'.blk.op = none := hop ▸ hi
      simp only [engineTurn, hs, hs', hi, hi']
      exact .fault _
  · rw [engineTurn_of_ne_exec hs, engineTurn_of_ne_exec (h.blk.seq ▸ hs)]
    exact .next h

theorem sameOutcome_takeTurn (hinv : StatusInv s.blk) (t : Turn) : SameOutcome (takeTurn t s) (takeTurn t s') := by
  cases t with
  | host => exact sameOutcome_hostTurn h
  | engine => exact sameOutcome_engineTurn h
  | random v => exact .next (h.setBlock (h.blk.answer hinv v))
  | rst => exact .next (h.setBlock (.refl _))
  | otherMaster => exact .refused _

theorem SameState.nextTurn : nextTurn s = nextTurn s' := by
  unfold Machine.nextTurn
  rw [h.turns, h.blk.seq]

theorem sameOutcome_step (hinv : StatusInv s.blk) : SameOutcome (step s) (step s') := by
  unfold step
  rw [← h.nextTurn]
  exact sameOutcome_takeTurn h.dropTurn hinv _

end

/-- Settles O59: the turn is the same, and each turn's operations keep `SameState`. -/
theorem hiddenRegistersAreUnobservable : Obligations.HiddenRegistersAreUnobservable := by
  intro s s' hinv hblk hpage hprogram hreads hturns
  have h := sameOutcome_step ⟨hblk, hpage, hprogram, hreads, hturns⟩ hinv
  generalize step s = o at h ⊢
  generalize step s' = o' at h ⊢
  cases h with
  | @next t t' ht =>
    refine ⟨?_, fun _ hf => (nomatch hf), fun _ hf => (nomatch hf)⟩
    rintro _ ⟨⟩
    exact ⟨t', rfl, ht.blk, ht.page, ht.program, ht.reads, ht.turns⟩
  | fault => exact ⟨fun _ ht => (nomatch ht), fun _ hf => hf, fun _ hf => (nomatch hf)⟩
  | refused => exact ⟨fun _ ht => (nomatch ht), fun _ hf => (nomatch hf), fun _ hf => hf⟩

/-! ### O50 to O52: what steps and commands leave alone (R27, R31 to R34) -/

/-- Settles O50: of all that a step does to the block, only a successful termination and a reset write results. -/
theorem resultsChangeOnlyAtTermination : Obligations.ResultsChangeOnlyAtTermination := by
  intro s t hstep
  have hc := (step_cases hstep).1
  generalize t.blk = c at hc ⊢
  cases hc with
  | unchanged | illegal | overrun | answer => exact .inl ⟨rfl, rfl, rfl⟩
  | issue i => exact .inl (issuePart_cases i (beginCommand (opcode i) s.blk)).sameResults
  | write r v _ hw =>
    have ho := writeReg_outcome r v s.blk
    generalize writeReg v s.blk r = c at ho ⊢
    cases ho with
    | reset hr h2 => exact .inr (.inr ⟨.inr ⟨v, hr ▸ hw, h2⟩, rfl⟩)
    | abort | enable | status | operands => exact .inl ⟨rfl, rfl, rfl⟩
  | engine i hturn hs =>
    exact (computePart_cases i s.blk).results.imp_right fun ⟨hidle, hdone⟩ => .inl ⟨hturn, hs, hidle, hdone⟩
  | reset hturn => exact .inr (.inr ⟨.inl hturn, rfl⟩)

/-- Settles O51: `exec` is a change of the block alone, and no phase of a command writes the host's registers. -/
theorem commandsWriteNoOperand : Obligations.CommandsWriteNoOperand := by
  intro i s
  have h := sameHostRegs_commandPhase i s.blk
  exact ⟨_, exec_eq i s, h.aLo, h.aHi, h.bLo, h.bHi, h.mLo, h.mHi, h.ie, h.ovr, rfl, rfl, rfl, rfl⟩

/-- Every effect of a step on OVR (R27, R131, R138). -/
theorem BlockStep.ovr {s : State} {c : Block} (h : BlockStep s c) :
    c.ovr = s.blk.ovr ∨ (s.blk.seq ≠ .idle ∧ c.ovr = true ∧ ∃ v, WritesNext s 0x0C v) ∨
    (ResetsNext s ∧ c.ovr = false) ∨ ∃ v, WritesNext s 0x08 v ∧ c.ovr = (s.blk.ovr && !v.getLsbD 3) := by
  cases h with
  | unchanged | illegal | answer => exact .inl rfl
  | issue i => exact .inl (sameHostRegs_issue i s.blk).ovr
  | overrun v hs hw => exact .inr (.inl ⟨hs, rfl, v, hw⟩)
  | write r v _ hw =>
    have ho := writeReg_outcome r v s.blk
    generalize writeReg v s.blk r = c at ho ⊢
    cases ho with
    | reset hr h2 => exact .inr (.inr (.inl ⟨.inr ⟨v, hr ▸ hw, h2⟩, rfl⟩))
    | status hr => subst hr; exact .inr (.inr (.inr ⟨v, hw, rfl⟩))
    | abort | enable | operands => exact .inl rfl
  | engine i => exact .inl (sameHostRegs_compute i s.blk).ovr
  | reset hturn => exact .inr (.inr (.inl ⟨.inl hturn, rfl⟩))

/-- Settles O52: each effect of a step on OVR is a rise, a fall or neither. -/
theorem overrunRisesAndFallsOnlyAsStated : Obligations.OverrunRisesAndFallsOnlyAsStated := by
  intro s t hstep
  obtain h | ⟨hs, h, hw⟩ | ⟨hr, h⟩ | ⟨v, hw, h⟩ := (step_cases hstep).1.ovr <;> rw [h]
  · exact ⟨fun h0 h1 => absurd (h0.symm.trans h1) (by decide), fun h1 h0 => absurd (h0.symm.trans h1) (by decide)⟩
  · exact ⟨fun _ _ => ⟨hs, hw⟩, fun _ h0 => nomatch h0⟩
  · exact ⟨fun _ h1 => (nomatch h1), fun _ _ => .inl hr⟩
  · refine ⟨fun h0 h1 => ?_, fun h1 h0 => .inr ⟨v, hw, ?_⟩⟩
    · simp [h0] at h1
    · simpa [h1] using h0

/-! ### O53: operand writes and a running command (R36, R139) -/

/-- `b` with the operand words of `o`. -/
def withOperands (b o : Block) : Block :=
  { b with aLo := o.aLo, aHi := o.aHi, bLo := o.bLo, bHi := o.bHi, mLo := o.mLo, mHi := o.mHi }

/-- The engine's step reads no operand word and writes none (R36). -/
theorem computePart_withOperands (i : Instr) (b o : Block) :
    computePart i (withOperands b o) = withOperands (computePart i b) o := by
  cases i with
  | nop | modpow | modmul | mrround => rfl
  | primetest =>
    by_cases hr : b.r = 0
    · cases hf : fastPath b.sm with
      | some p => rw [computePart_fast hr hf]; exact computePart_fast (b := withOperands b o) hr hf
      | none => rw [computePart_first hr hf]; exact computePart_first (b := withOperands b o) hr hf
    · cases hw : witnessOutside b.n b.a with
      | true => rw [computePart_outside hr hw]; exact computePart_outside (b := withOperands b o) hr hw
      | false =>
        cases hv : lastVerdict (runRound b) with
        | composite => rw [computePart_composite hr hw hv]; exact computePart_composite (b := withOperands b o) hr hw hv
        | pass =>
          by_cases h20 : b.r.toNat < mrRounds
          · rw [computePart_again hr hw hv h20]; exact computePart_again (b := withOperands b o) hr hw hv h20
          · rw [computePart_last hr hw hv h20]; exact computePart_last (b := withOperands b o) hr hw hv h20

theorem withOperands_computePart (i : Instr) (b : Block) : withOperands (computePart i b) b = computePart i b := by
  have h := sameHostRegs_compute i b
  simp only [withOperands, ← h.aLo, ← h.aHi, ← h.bLo, ← h.bHi, ← h.mLo, ← h.mHi]

section
variable (v : Word) {r : Reg} (hc : r ≠ .ctrl) (hs : r ≠ .status)
include hc hs

/-- A write of neither CTRL nor STATUS depends on the operand words alone, and changes no other register. -/
theorem writeReg_withOperands (b c : Block) : writeReg v (withOperands c b) r = withOperands c (writeReg v b r) := by
  cases r <;> first | rfl | contradiction

theorem computePart_writeReg (i : Instr) (b : Block) :
    computePart i (writeReg v b r) = writeReg v (computePart i b) r :=
  calc computePart i (writeReg v b r)
    _ = computePart i (withOperands b (writeReg v b r)) := by rw [← writeReg_withOperands v hc hs]; rfl
    _ = withOperands (computePart i b) (writeReg v b r) := computePart_withOperands i b _
    _ = writeReg v (withOperands (computePart i b) b) r := (writeReg_withOperands v hc hs b _).symm
    _ = writeReg v (computePart i b) r := by rw [withOperands_computePart]

theorem writeReg_seq_op (b : Block) : (writeReg v b r).seq = b.seq ∧ (writeReg v b r).op = b.op := by
  cases r <;> first | exact ⟨rfl, rfl⟩ | contradiction

end

/-- The registers of the operands stand at `0x10` to `0x24` (R20). -/
theorem exists_operandReg {off : Nat} (h : 0x10 ≤ off) (h' : off ≤ 0x24) (h4 : off % 4 = 0) :
    ∃ r : Reg, r.offset = off ∧ r ≠ .cmd ∧ r ≠ .ctrl ∧ r ≠ .status := by
  obtain rfl | rfl | rfl | rfl | rfl | rfl :
      off = 0x10 ∨ off = 0x14 ∨ off = 0x18 ∨ off = 0x1C ∨ off = 0x20 ∨ off = 0x24 := by omega
  · exact ⟨.aLo, by decide⟩
  · exact ⟨.aHi, by decide⟩
  · exact ⟨.bLo, by decide⟩
  · exact ⟨.bHi, by decide⟩
  · exact ⟨.mLo, by decide⟩
  · exact ⟨.mHi, by decide⟩

/-- Settles O53: the operand write leaves EXEC and the opcode, and commutes with the command's computation. -/
theorem operandWriteCannotDisturbTheCommand : Obligations.OperandWriteCannotDisturbTheCommand := by
  intro s v off h h' h4 hs ⟨i, hi⟩
  obtain ⟨r, rfl, hcmd, hctrl, hstatus⟩ := exists_operandReg h h' h4
  obtain ⟨hseq, hop⟩ := writeReg_seq_op v hctrl hstatus s.blk
  have hengine : step (s.withTurn .engine) = .next { s with blk := computePart i s.blk } :=
    (engineTurn_exec hs hi).trans (exec_inExec i hs)
  refine ⟨_, _, _, step_writes_reg s v hcmd, ?_, hengine, step_writes_reg _ v hcmd⟩
  rw [step_withTurn, takeTurn, engineTurn_exec (i := i) (hseq.trans hs) (by rw [mapBlock_blk, hop, hi]),
    exec_inExec i (hseq.trans hs)]
  simp only [State.mapBlock, computePart_writeReg v hctrl hstatus]

/-! ### The tier 1 statements -/

/-- Settles O5, by the two equations of the engine's turn. -/
theorem engineTurnRunsTheCurrentCommand : Obligations.EngineTurnRunsTheCurrentCommand :=
  fun _ => ⟨fun _ hs hop => engineTurn_exec hs hop, engineTurn_of_ne_exec⟩

/-- Settles O22, by the two equations of the random source's turn. -/
theorem randomAnswerResumesEngine : Obligations.RandomAnswerResumesEngine := by
  intro s v
  rw [step_withTurn, takeTurn, State.mapBlock]
  exact ⟨fun h => by rw [answerWitness_pending v h], fun h => by rw [answerWitness_not_pending v h]⟩

/-- Settles O32: one rule for the reads of all the registers, and two for the poll. -/
theorem readReturnsTheRegister : Obligations.ReadReturnsTheRegister := by
  intro s
  refine ⟨step_reads_reg s .id, ?_, step_reads_reg s .status, step_reads_reg s .cmd, step_reads_reg s .aLo,
    step_reads_reg s .aHi, step_reads_reg s .bLo, step_reads_reg s .bHi, step_reads_reg s .mLo,
    step_reads_reg s .mHi, step_reads_reg s .rLo, step_reads_reg s .rHi, step_reads_reg s .rounds,
    step_reads_reg s .witLo, step_reads_reg s .witHi, ?_⟩
  · have hie : readReg s.blk .ctrl = if s.blk.ie then 1 else 0 := by
      simp only [readReg]
      cases s.blk.ie <;> rfl
    rw [← hie]
    exact step_reads_reg s .ctrl
  · rw [step_withHost_poll]
    by_cases hs : s.blk.seq = .idle
    · rw [if_pos hs]; exact congrArg _ (hostPoll_idle _ hs)
    · rw [if_neg hs]; exact congrArg _ (hostPoll_busy _ hs)

/-- Settles O34, by the bits of the word: the low eight one by one, those above as ERRCODE's. -/
theorem statusWordLayout : Obligations.StatusWordLayout := by
  intro b
  obtain ⟨hdone, herr, hovr, hwait, h5, h6, h7⟩ := statusWord_flags b
  refine ⟨by rw [statusWord_busy, busy_iff], hdone, herr, hovr, by rw [hwait]; simp [Block.rngwait], ?_, ?_, ?_⟩
  · refine BitVec.eq_of_getLsbD_eq fun i hi => ?_
    rw [BitVec.getLsbD_extractLsb']
    obtain rfl | rfl | rfl : i = 0 ∨ i = 1 ∨ i = 2 := by omega
    · exact h5
    · exact h6
    · exact h7
  · refine BitVec.eq_of_getLsbD_eq fun i hi => ?_
    simp [statusWord_errcode, hi]
  · refine BitVec.eq_of_getLsbD_eq fun i hi => ?_
    rw [BitVec.getLsbD_extractLsb', show 12 + i = 8 + (4 + i) by omega, statusWord_errcode]
    simp

/-- Settles O41, by evaluation of the reset state. -/
theorem resetValues : Obligations.ResetValues := by
  unfold Obligations.ResetValues
  decide

/-- Settles O44: OVR is no input of `irq`. -/
theorem irqIsALevelOfDoneAndErr : Obligations.IrqIsALevelOfDoneAndErr := by
  intro b o
  exact ⟨by simp [Block.irq], rfl⟩

/-- The command invariants speak of a running command only. -/
theorem commandInv_of_idle {b : Block} (h : b.seq = .idle) : CommandInv b where
  legal hs := absurd h hs
  modulus hs := absurd h hs
  round hs := absurd h hs
  test hs := absurd h hs
  request hs := nomatch h.symm.trans hs

/-- Settles O46: an idle block meets the command invariants whatever it holds. -/
theorem invariantsHoldAtReset : Obligations.InvariantsHoldAtReset :=
  ⟨statusInv_reset, commandInv_of_idle rfl⟩

end Sys2Proof.Machine

/-! Proofs of the statements of 20_memory.md: what the bus interface makes of an access, then the statements. -/

namespace Sys2Proof.Machine

/-! ### Rules: the bus interface's reading of an access (R51 to R54) -/

theorem readWindow_reserved (b : Block) {off : Nat} (h : 0x3C ≤ off) : readWindow b off = 0 := by
  rw [readWindow, regAt_reserved h]

/-- R53: an access the bus interface reads as malformed faults. -/
theorem step_malformed {s : State} {a : Access} (h : decodeAccess s.base a = .malformed) :
    step (s.withHost (.access a)) = .fault (.malformedAccess 0) := by
  rw [step_withHost_access, hostAccess, h]

/-- R51: an access the block does not decode changes nothing. -/
theorem step_outside {s : State} {a : Access} (h : decodeAccess s.base a = .outside) :
    step (s.withHost (.access a)) = .next s := by
  rw [step_withHost_access, hostAccess, h]

theorem touchesWindow_eq_false {base addr n : Nat} (h : addr + n ≤ base ∨ base + 0x100 ≤ addr) :
    touchesWindow base addr n = false := by
  rw [← Bool.not_eq_true, touchesWindow_iff]
  omega

/-- An access that is not 4 bytes at an aligned offset has the wrong size or stands on no register (R52). -/
theorem size_ne_word_or_not_onRegister {base addr : Nat} {size : Size}
    (h : ¬(size = .word ∧ base ≤ addr ∧ (addr - base) % 4 = 0)) : size ≠ .word ∨ onRegister base addr = false := by
  by_cases hs : size = .word
  · refine .inr ?_
    rw [← Bool.not_eq_true, onRegister_iff]
    exact fun ⟨hbase, _, h4⟩ => h ⟨hs, hbase, h4⟩
  · exact .inl hs

/-- Two accesses, each writing a register other than CMD, write the two registers one after the other (R57). -/
theorem step_writes_two_regs (s : State) (v w : Word) {r q : Reg} (hr : r ≠ .cmd) (hq : q ≠ .cmd) :
    ∃ t, step (s.hostWrites r.offset v) = .next t ∧
      step (t.hostWrites q.offset w) = .next (s.mapBlock fun b => writeReg w (writeReg v b r) q) :=
  ⟨_, step_writes_reg s v hr, step_writes_reg _ w hq⟩

/-! ### The tier 2 statements -/

/-- Settles O33: no register stands at a reserved offset. -/
theorem reservedOffsetsReadZeroIgnoreWrites : Obligations.ReservedOffsetsReadZeroIgnoreWrites := by
  intro s off v hlow hhigh h4
  refine ⟨?_, step_writes_reserved s v hlow hhigh h4⟩
  rw [step_hostReads s hhigh h4, readWindow_reserved s.blk hlow, State.record]

/-- Settles O35: the bus interface reads such an access as malformed, whichever of its size and its place is wrong. -/
theorem malformedAccessFaults : Obligations.MalformedAccessFaults := by
  intro s addr hend
  constructor
  · intro size hstart hbad
    exact step_malformed (decodeAccess_malformed_read ((touchesWindow_iff _ _ _).2 ⟨hend, hstart⟩)
      (size_ne_word_or_not_onRegister hbad))
  · intro data hstart hbad
    exact step_malformed (decodeAccess_malformed_write ((touchesWindow_iff _ _ _).2 ⟨hend, hstart⟩)
      (size_ne_word_or_not_onRegister hbad))

/-- Settles O36: an access that does not touch the window is not decoded. -/
theorem outsideAccessLeavesTheBlock : Obligations.OutsideAccessLeavesTheBlock := fun _ _ =>
  ⟨fun _ h => step_outside (decodeAccess_outside_read (touchesWindow_eq_false h)),
    fun _ h => step_outside (decodeAccess_outside_write (touchesWindow_eq_false h))⟩

/-- Settles O38: for each operand the writes of its two registers meet in the same block, and join to the operand. -/
theorem operandHalvesInEitherOrder : Obligations.OperandHalvesInEitherOrder := by
  intro s u x o lo hi ho
  obtain ⟨rfl, rfl⟩ | ⟨rfl, rfl⟩ | ⟨rfl, rfl⟩ := ho
  · exact ⟨step_writes_two_regs s lo hi (r := .aLo) (q := .aHi) nofun nofun,
      step_writes_two_regs s hi lo (r := .aHi) (q := .aLo) nofun nofun, fun _ => join_split x, nofun, nofun⟩
  · exact ⟨step_writes_two_regs s lo hi (r := .bLo) (q := .bHi) nofun nofun,
      step_writes_two_regs s hi lo (r := .bHi) (q := .bLo) nofun nofun, nofun, fun _ => join_split x, nofun⟩
  · exact ⟨step_writes_two_regs s lo hi (r := .mLo) (q := .mHi) nofun nofun,
      step_writes_two_regs s hi lo (r := .mHi) (q := .mLo) nofun nofun, nofun, nofun, fun _ => join_split x⟩

/-! ### The tier 1 statement -/

/-- Settles O37: the register of the byte at `off + k` is the one at `off`, and its lane there is `k`. -/
theorem littleEndianLanes : Obligations.LittleEndianLanes := by
  intro b off k h4 hk
  have hlane : (off + k) % 4 = k := by omega
  rw [windowByte, hlane, Nat.add_sub_cancel, laneByte]

end Sys2Proof.Machine

/-! Proofs of the statements of 30_encoding.md: the byte decoder and the issue of an illegal word, then the statements. -/

namespace Sys2Proof.Machine

/-! ### Rules: the decoder on bytes (R55, R70) and the issue of an illegal word (R72) -/

/-- Bytes make a word exactly when they are its four lanes (R55). -/
theorem wordOfBytes_eq_some_iff {bs : List Byte} {v : Word} : wordOfBytes bs = some v ↔ bs = bytesOfWord v := by
  constructor
  · exact bytesOfWord_word
  · rintro rfl
    exact wordOfBytes_bytes v

/-- The byte decoder answers a command only through the word the bytes make (R70). -/
theorem decode_eq_command_iff {bs : List Byte} {i : Instr} :
    decode bs = .command i ↔ ∃ v, wordOfBytes bs = some v ∧ decodeWord v = .command i := by
  rw [decode]
  cases wordOfBytes bs with
  | some v => simp
  | none => simp

/-- The host's write of a rejected word to CMD on an idle engine is the error termination at issue (R72, R145). -/
theorem step_writes_cmd_rejected {s : State} {v : Word} {why : Reject} (hidle : s.blk.seq = .idle)
    (hreject : decodeWord v = .reject why) :
    step (s.hostWrites 0x0C v) = .next { s with blk := { s.blk with
      done := false, err := true, errcode := 2, rngPending := false, seq := .idle } } := by
  rw [step_writes_cmd, commandWrite_illegal hidle hreject, State.mapBlock, illegalCommand_eq]

/-! ### The tier 3 statement -/

/-- Settles O2: the bytes of a command are the lanes of its word, and the decoder selects the command at that word. -/
theorem decodeAcceptsExactlyTheEncodings : Obligations.DecodeAcceptsExactlyTheEncodings := by
  intro bs i
  calc decode bs = .command i
      ↔ ∃ v, wordOfBytes bs = some v ∧ decodeWord v = .command i := decode_eq_command_iff
    _ ↔ ∃ v, bs = bytesOfWord v ∧ v = encodeWord i := by simp only [wordOfBytes_eq_some_iff, decodeWord_iff]
    _ ↔ bs = encode i := by simp only [exists_eq_right, encode]

/-! ### The tier 2 statement -/

/-- Settles O3: a word with an illegal field is one the decoder rejects, and a rejected word ends at issue. -/
theorem illegalWordEndsAtIssue : Obligations.IllegalWordEndsAtIssue := by
  intro s v
  refine ⟨decodeWord_reject v, fun hidle hfields => ?_⟩
  obtain ⟨why, hreject⟩ := (decodeWord_reject v).2 hfields
  exact step_writes_cmd_rejected hidle hreject

/-! ### The tier 1 statement -/

/-- Settles O1: eight words and two byte sequences, each closed, evaluated by the decoder. -/
theorem opcodeMapWordsDecode : Obligations.OpcodeMapWordsDecode := by
  unfold Obligations.OpcodeMapWordsDecode
  decide

end Sys2Proof.Machine

/-! Proofs of the statements of 40_modexp.md: the work of the power loop and the two computations in EXEC, then the
statements. -/

namespace Sys2Proof.Machine

/-! ### Rules: the work of the power loop (R95) -/

/-- Halving a nonzero number takes one bit off its length. -/
theorem size_eq_size_half {n : Nat} (h : n ≠ 0) : n.size = (n / 2).size + 1 := by
  have hbit : Nat.bit (n.testBit 0) (n / 2) = n := by
    rw [← Nat.shiftRight_one, Nat.bit_testBit_zero_shiftRight_one]
  have hsize := Nat.size_bit (hbit.symm ▸ h)
  rwa [hbit] at hsize

theorem powSquarings_zero (m : Dword) (k : Nat) {p : PowRegs} (h : p.e = 0) : powSquarings m k p = 0 := by
  cases k with
  | zero => rfl
  | succ k => exact if_pos h

theorem powSquarings_succ (m : Dword) (k : Nat) {p : PowRegs} (h : p.e ≠ 0) :
    powSquarings m (k + 1) p = 1 + powSquarings m k (powStep m p) := if_neg h

theorem powMultiplications_zero (m : Dword) (k : Nat) {p : PowRegs} (h : p.e = 0) :
    powMultiplications m k p = 0 := by
  cases k with
  | zero => rfl
  | succ k => exact if_pos h

theorem powMultiplications_succ (m : Dword) (k : Nat) {p : PowRegs} (h : p.e ≠ 0) :
    powMultiplications m (k + 1) p =
      (if p.e.getLsbD 0 then 1 else 0) + powMultiplications m k (powStep m p) := if_neg h

/-- With the fuel for its exponent, the loop squares once for each bit of the exponent's length. -/
theorem powSquarings_eq_size (m : Dword) (k : Nat) (p : PowRegs) (hk : p.e.toNat < 2 ^ k) :
    powSquarings m k p = p.e.toNat.size := by
  induction k generalizing p with
  | zero =>
    have he : p.e.toNat = 0 := by omega
    rw [he]
    rfl
  | succ k ih =>
    by_cases h : p.e = 0
    · rw [powSquarings_zero m _ h, h]
      rfl
    · have hne : p.e.toNat ≠ 0 := fun hc => h (BitVec.eq_of_toNat_eq hc)
      have hhalf : (powStep m p).e.toNat = p.e.toNat / 2 := toNat_shiftRight_one p.e
      rw [Nat.pow_succ] at hk
      rw [powSquarings_succ m k h, ih _ (by omega), hhalf, size_eq_size_half hne, Nat.add_comm]

/-- In `k` iterations the loop multiplies once for each one bit among the exponent's low `k` bits. -/
theorem powMultiplications_eq_countP (m : Dword) (k : Nat) (p : PowRegs) :
    powMultiplications m k p = (List.range k).countP (fun i => p.e.getLsbD i) := by
  induction k generalizing p with
  | zero => rfl
  | succ k ih =>
    by_cases h : p.e = 0
    · simp [powMultiplications_zero m _ h, h]
    · have hbit : ∀ i, (powStep m p).e.getLsbD i = p.e.getLsbD (i + 1) := fun i => by
        rw [powStep, BitVec.getLsbD_ushiftRight, Nat.add_comm]
      rw [powMultiplications_succ m k h, ih, List.range_succ_eq_map, List.countP_cons, List.countP_map,
        Nat.add_comm]
      simp only [hbit, Function.comp_def]

/-! ### Rules: the two computations in EXEC (R92, R93) -/

theorem toNat_pos_of_ne_zero {m : Dword} (h : m ≠ 0) : 0 < m.toNat :=
  Nat.pos_of_ne_zero fun hc => h (BitVec.eq_of_toNat_eq hc)

/-- A `finish` that assigns R alone (R132). -/
theorem finish_result (x : Dword) (b : Block) :
    finish { r := some x } b = { b with
      rLo := x.extractLsb' 0 32, rHi := x.extractLsb' 32 32, done := true, rngPending := false, seq := .idle } := rfl

theorem computePart_modmul (b : Block) :
    computePart .modmul b =
      finish { r := some (modMulCore b.sa b.sb b.sm) } { b with prod := product b.sa b.sb } := rfl

theorem computePart_modpow (b : Block) :
    computePart .modpow b =
      finish { r := some (powRun b.sa b.sb b.sm b.prod).acc } (setPow (powRun b.sa b.sb b.sm b.prod) b) := rfl

/-! ### The tier 2 statements -/

/-- Settles O15: the datapath's product is the one modulo SM, and the termination writes it. -/
theorem modmulComputesProductModulo : Obligations.ModmulComputesProductModulo := by
  intro s hs hm
  refine ⟨_, modMulCore_toNat s.blk.sa s.blk.sb (toNat_pos_of_ne_zero hm), ?_⟩
  rw [exec_inExec .modmul hs, computePart_modmul, finish_result, product]

/-- Settles O16: the loop leaves the power in `acc` and 0 in `e`, and the termination writes `acc` to R. -/
theorem modpowComputesPowerModulo : Obligations.ModpowComputesPowerModulo := by
  intro s hs hm
  obtain ⟨hacc, he⟩ := powRun_spec s.blk.sa s.blk.sb s.blk.prod (toNat_pos_of_ne_zero hm)
  rw [exec_inExec .modpow hs, computePart_modpow, finish_result, setPow, he]
  exact ⟨_, _, _, hacc, rfl⟩

/-- Settles O23: the loop's invariant for the power, and the datapath's product, with a remainder's bound for each. -/
theorem datapathMeetsItsArithmetic : Obligations.DatapathMeetsItsArithmetic := by
  intro a b e m hm
  exact ⟨(powRun_spec b e 0 hm).1, modMulCore_toNat a b hm, powRun_acc_lt b e 0 hm, modMulCore_lt a b hm⟩

/-- Settles O24: the two counts of the loop at its 64 iterations, each at most 64. -/
theorem modPowWorkCount : Obligations.ModPowWorkCount := by
  intro b e m
  have hsq : modPowSquarings b e m = e.toNat.size := powSquarings_eq_size m 64 (powStart b e m 0) e.isLt
  have hmul : modPowMultiplications b e m = (List.range 64).countP (fun k => e.getLsbD k) :=
    powMultiplications_eq_countP m 64 (powStart b e m 0)
  have hsize : e.toNat.size ≤ 64 := Nat.size_le.2 e.isLt
  have hcount : (List.range 64).countP (fun k => e.getLsbD k) ≤ 64 := by
    simpa only [List.length_range] using
      (List.countP_le_length (l := List.range 64) (p := fun k => e.getLsbD k))
  exact ⟨hsq, hmul, by omega⟩

end Sys2Proof.Machine

/-! Proofs of the statements of 41_primality.md: the arithmetic of a round on a prime, the fast paths, the commands'
parts at issue and in EXEC, the run of a whole PRIMETEST, then the statements. -/

namespace Sys2Proof.Machine

/-! ### Rules: a prime passes every round (R118) -/

/-- A chain of squarings that reaches 1 starts at 1 or goes through -1: the only square roots of 1 are 1 and -1. -/
theorem eq_one_or_exists_eq_neg_one {R : Type} [Ring R] [NoZeroDivisors R] {x : R} (k : Nat) (h : x ^ 2 ^ k = 1) :
    x = 1 ∨ ∃ j, j ≤ k ∧ x ^ 2 ^ j = -1 := by
  induction k with
  | zero => exact .inl (by simpa using h)
  | succ k ih =>
    rw [pow_succ, pow_mul, sq_eq_one_iff] at h
    rcases h with h | h
    · exact (ih h).imp_right fun ⟨j, hj, hx⟩ => ⟨j, by omega, hx⟩
    · exact .inr ⟨k, by omega, h⟩

/-- Fermat's theorem at `p - 1 = d·2^k` starts the chain of squarings at `a^d` (R118). -/
theorem strongPass_of_prime {p a : Nat} (hp : p.Prime) (ha : 1 ≤ a) (hap : a < p) : StrongPass p a := by
  have hp2 := hp.two_le
  obtain ⟨k, d, hd, hpd⟩ := Nat.exists_eq_two_pow_mul_odd (n := p - 1) (by omega)
  rw [mul_comm] at hpd
  have := Fact.mk hp
  have hmod {e r : Nat} (hr : r < p) (h : (a : ZMod p) ^ e = (r : Nat)) : a ^ e % p = r := by
    rw [← Nat.mod_eq_of_lt hr, ← ZMod.natCast_eq_natCast_iff', Nat.cast_pow, h]
  have hne : (a : ZMod p) ≠ 0 := by
    rw [Ne, ZMod.natCast_eq_zero_iff]
    exact Nat.not_dvd_of_pos_of_lt ha hap
  have hneg : ((p - 1 : Nat) : ZMod p) = -1 := by simp [Nat.cast_sub hp.one_le]
  have hfermat : ((a : ZMod p) ^ d) ^ 2 ^ k = 1 := by rw [← pow_mul, ← hpd, ZMod.pow_card_sub_one_eq_one hne]
  refine ⟨d, k, Nat.odd_iff.1 hd, hpd, ?_⟩
  rcases eq_one_or_exists_eq_neg_one k hfermat with h | ⟨j, hj, h⟩
  · exact .inl (hmod (by omega) (by simpa using h))
  · exact .inr ⟨j, hj, hmod (by omega) (by rw [pow_mul, h, hneg])⟩

theorem oddCandidate_of_prime {p : Nat} (hp : p.Prime) (h2 : 2 < p) : OddCandidate p :=
  ⟨hp.eq_two_or_odd.resolve_left (by omega), h2⟩

/-! ### Rules: the fast paths (R114, R117) -/

theorem ReachesRounds.oddCandidate {n : Nat} (h : ReachesRounds n) : OddCandidate n := by
  obtain ⟨hodd, hne, -⟩ := h
  exact ⟨hodd, by omega⟩

/-- A prime above 3 is divisible neither by 2 nor by 3, so it is 1 or 5 modulo 6 (R117). -/
theorem reachesRounds_of_prime {p : Nat} (hp : p.Prime) (h2 : 2 < p) : ReachesRounds p := by
  obtain ⟨hodd, h3⟩ := oddCandidate_of_prime hp h2
  refine ⟨hodd, by omega, fun hgt => ?_⟩
  have hmod : p % 3 ≠ 0 := fun h =>
    absurd ((Nat.prime_dvd_prime_iff_eq Nat.prime_three hp).1 (Nat.dvd_of_mod_eq_zero h)) (by omega)
  omega

theorem fastPath_of_reachesRounds {n : Dword} (h : ReachesRounds n.toNat) : fastPath n = none :=
  Option.eq_none_iff_forall_ne_some.2 fun _ hp => fastPath_some hp h

/-- A fast path that decides answers whether the candidate is 2. -/
theorem fastPath_of_not_reachesRounds {n : Dword} (h : ¬ReachesRounds n.toNat) :
    fastPath n = some (decide (n.toNat = 2)) := by
  unfold ReachesRounds at h
  rw [fastPath_eq]
  by_cases h2 : n.toNat = 2
  · simp [h2]
  · rw [if_neg h2, if_pos (by omega), decide_eq_false h2]

/-! ### Rules: rounds and terminations (R111, R132) -/

theorem Verdict.eq_composite {v : Verdict} (h : v ≠ .pass) : v = .composite := by
  cases v with
  | pass => contradiction
  | composite => rfl

/-- The round just run passed exactly when its witness is a strong pass (R111). -/
theorem lastVerdict_runRound_pass_iff {b : Block} (hn : OddCandidate b.n.toNat) (hd : OddPart b.n.toNat b.d.toNat) :
    lastVerdict (runRound b) = .pass ↔ StrongPass b.n.toNat b.a.toNat := by
  rw [lastVerdict_runRound, roundVerdict_pass_iff b.a b.prod hn hd]

theorem witnessOutside_eq_false {n a : Dword} (h : 1 ≤ a.toNat) (h' : a.toNat ≤ n.toNat - 2) :
    witnessOutside n a = false :=
  Bool.eq_false_iff.2 fun hc => by rw [witnessOutside_eq] at hc; omega

/-- The result 1, in its two words (R76). -/
theorem join_one : join 0 1 = 1 := by decide

/-- A `finish` of a primality command: R is a Boolean result, and ROUNDS and WIT are both assigned (R76, R132). -/
theorem finish_decision (p : Bool) (count : BitVec 5) (w : Dword) (b : Block) :
    finish { r := some (boolResult p), rounds := some count, wit := some w } b = { b with
      rLo := if p then 1 else 0, rHi := 0, rounds := count, witLo := w.extractLsb' 0 32,
      witHi := w.extractLsb' 32 32, done := true, rngPending := false, seq := .idle } := by
  cases p <;> rfl

/-- The block with the registers of MRROUND's round loaded from the snapshot (R113). -/
def loadRound (b : Block) : Block := { b with n := b.sm, d := decomposeOdd b.sm, a := b.sa }

/-- MRROUND in EXEC (R113). -/
theorem computePart_mrround (b : Block) :
    computePart .mrround b =
      finish
        { r := some (boolResult (lastVerdict (runRound (loadRound b)) == .pass)), rounds := some 1, wit := some b.sa }
        (runRound (loadRound b)) := rfl

/-! MRROUND at issue, one equation for each way through the checks of R113. -/

section
variable {b : Block}

theorem issueMrround_candidate (h : b.sm.toNat % 2 = 0 ∨ b.sm.toNat < 3) :
    issueMrround b = raiseError .invalidCandidate b := if_pos ((candidateInvalid_eq b.sm).2 h)

theorem issueMrround_of_oddCandidate (h : OddCandidate b.sm.toNat) :
    issueMrround b = if witnessOutside b.sm b.sa then raiseError .witnessOutOfRange b else startExec b :=
  if_neg fun hc => by
    obtain ⟨hodd, h3⟩ := h
    rw [candidateInvalid_eq] at hc
    omega

theorem issueMrround_witness (hn : OddCandidate b.sm.toNat) (h : b.sa.toNat < 1 ∨ b.sm.toNat - 2 < b.sa.toNat) :
    issueMrround b = raiseError .witnessOutOfRange b :=
  (issueMrround_of_oddCandidate hn).trans (if_pos ((witnessOutside_eq b.sm b.sa).2 h))

theorem issueMrround_good (hn : OddCandidate b.sm.toNat) (h : 1 ≤ b.sa.toNat) (h' : b.sa.toNat ≤ b.sm.toNat - 2) :
    issueMrround b = startExec b :=
  (issueMrround_of_oddCandidate hn).trans (if_neg (by rw [witnessOutside_eq_false h h']; decide))

end

/-! ### The tier 2 statements about the functions and about one step -/

/-- Settles O25: the halving loop leaves the odd part, and `n - 1` is even, so its exponent is at least 1. -/
theorem decomposeOddIsTheOddPart : Obligations.DecomposeOddIsTheOddPart :=
  fun _ => decomposeOdd_oddPart

/-- Settles O26: the loop's invariant after any number of iterations; 64 are enough for its own test to end it. -/
theorem roundStaysWithinBounds : Obligations.RoundStaysWithinBounds := by
  intro n d a s ⟨_, h3⟩ hd hs start
  have hs63 : s ≤ 63 := exponent_le hd hs
  have hstart : RoundAt n.toNat d.toNat a.toNat 0 start := { roundAt_start (prod := 0) h3 with }
  refine ⟨hs63, ?_, ?_, fun k => ?_⟩
  · obtain ⟨j, -, hj, -, -, hcount, -, -⟩ := roundLoop_spec h3 hs 64 0 start (Nat.zero_le s) hstart
    exact hcount.trans_le (by omega)
  · obtain ⟨_, -, -, -, -, -, hend, -⟩ := roundLoop_spec h3 hs 64 0 start (Nat.zero_le s) hstart
    exact hend (by omega)
  · obtain ⟨j, -, hj, hjk, hat, hcount, -, -⟩ := roundLoop_spec h3 hs k 0 start (Nat.zero_le s) hstart
    obtain rfl : roundSquarings n k start = j := hcount
    refine ⟨hj, by omega, roundSquarings_of_goesOn n k start, hat.exponent, ?_, ?_⟩
    · rw [hat.exponent, hs]
      exact Nat.mul_le_mul_left _ (Nat.pow_le_pow_right (by omega) hj)
    · rw [hat.value]
      exact Nat.mod_lt _ (by omega)

/-- Settles O27: every witness below a prime is a strong pass, and a round passes on a strong pass. -/
theorem primePassesEveryRound : Obligations.PrimePassesEveryRound := by
  intro n a hp h3 ha han
  have hn : OddCandidate n.toNat := oddCandidate_of_prime hp h3
  exact (roundVerdict_pass_iff a 0 hn (decomposeOdd_oddPart hn)).2 (strongPass_of_prime hp ha (by omega))

/-- Settles O28: a fast path answers 0 exactly for what neither reaches the rounds nor is 2, and a prime is one or the
other. -/
theorem fastPathsNeverRejectAPrime : Obligations.FastPathsNeverRejectAPrime := by
  intro n
  have hfalse : fastPath n = some false ↔ ¬ReachesRounds n.toNat ∧ n.toNat ≠ 2 := by
    by_cases h : ReachesRounds n.toNat
    · simp [fastPath_of_reachesRounds h, h]
    · simp [fastPath_of_not_reachesRounds h, h]
  constructor
  · intro hp hzero
    obtain ⟨hr, h2⟩ := hfalse.1 hzero
    exact hr (reachesRounds_of_prime hp (lt_of_le_of_ne hp.two_le (Ne.symm h2)))
  · rw [hfalse, ReachesRounds]
    omega

/-- Settles O17: the round runs on the candidate's odd part, and its verdict is the Boolean result written to R. -/
theorem mrroundDecidesStrongPass : Obligations.MrroundDecidesStrongPass := by
  intro s hs hn _ _
  have hd : OddPart s.blk.sm.toNat (decomposeOdd s.blk.sm).toNat := decomposeOdd_oddPart hn
  have hpass : lastVerdict (runRound (loadRound s.blk)) = .pass ↔ StrongPass s.blk.sm.toNat s.blk.sa.toNat :=
    lastVerdict_runRound_pass_iff hn hd
  obtain ⟨acc, bp, e, t, y, prod, hrun⟩ := runRound_frame (loadRound s.blk)
  rw [exec_inExec .mrround hs, computePart_mrround, finish_decision]
  by_cases h : StrongPass s.blk.sm.toNat s.blk.sa.toNat
  · rw [hpass.2 h, hrun]
    exact ⟨1, acc, bp, e, _, t, y, prod, .inl ⟨rfl, h⟩, hd, rfl⟩
  · rw [Verdict.eq_composite (mt hpass.1 h), hrun]
    exact ⟨0, acc, bp, e, _, t, y, prod, .inr ⟨rfl, h⟩, hd, rfl⟩

/-- Settles O18: what the fast paths decide is whether the candidate is 2, and the termination writes it. -/
theorem primetestFastPaths : Obligations.PrimetestFastPaths := by
  intro s hs hr hfast
  rw [exec_inExec .primetest hs, computePart_fast hr (fastPath_of_not_reachesRounds hfast), finish_decision]
  simp only [decide_eq_true_eq]
  rfl

/-- Settles O19: no fast path decides, so the first request is made, with the candidate's odd part in `d`. -/
theorem primetestRequestsFirstWitness : Obligations.PrimetestRequestsFirstWitness := by
  intro s hs hr hreach
  refine ⟨decomposeOdd s.blk.sm, decomposeOdd_oddPart hreach.oddCandidate, ?_⟩
  rw [exec_inExec .primetest hs, computePart_first hr (fastPath_of_reachesRounds hreach), requestWitness]

/-- Settles O21: the round's verdict decides, and after a pass the round's number. -/
theorem primetestRoundOutcome : Obligations.PrimetestRoundOutcome := by
  intro s hs hr _ hn hd ha han
  have hin : witnessOutside s.blk.n s.blk.a = false := witnessOutside_eq_false ha han
  have hpass := lastVerdict_runRound_pass_iff hn hd
  obtain ⟨acc, bp, e, t, y, prod, hrun⟩ := runRound_frame s.blk
  refine ⟨acc, bp, e, t, y, prod, fun h => ?_, fun h h20 => ?_, fun h h20 => ?_⟩
  · rw [exec_inExec .primetest hs, computePart_composite hr hin (Verdict.eq_composite (mt hpass.1 h)), hrun]
    rfl
  · rw [exec_inExec .primetest hs, computePart_again hr hin (hpass.2 h) h20, hrun, requestWitness]
  · rw [exec_inExec .primetest hs, computePart_last hr hin (hpass.2 h) (by rw [h20]; decide), hrun]
    rfl

/-! ### Rules: a PRIMETEST on a prime, round by round (R114, R116) -/

/-- A PRIMETEST of `p` waits for the witness of round `r`. -/
structure AwaitsWitness (p : Dword) (r : Nat) (b : Block) : Prop where
  seq : b.seq = .rngwait
  pending : b.rngPending = true
  op : b.op = 0x04
  candidate : b.n = p
  oddPart : OddPart p.toNat b.d.toNat
  round : b.r.toNat = r

/-- A PRIMETEST ended with R = 1 after 20 rounds, `last` being the last witness. -/
structure EndedPrime (last : Dword) (b : Block) : Prop where
  result : b.result = 1
  rounds : b.rounds = 20
  witness : b.witness = last
  done : b.done = true
  seq : b.seq = .idle

/-- What no step of a PRIMETEST on a prime touches. -/
structure SameSurroundings (s t : State) : Prop where
  err : t.blk.err = s.blk.err
  ovr : t.blk.ovr = s.blk.ovr
  ie : t.blk.ie = s.blk.ie
  program : t.program = s.program
  reads : t.reads = s.reads
  page : t.page = s.page

theorem SameSurroundings.trans {s t u : State} (h : SameSurroundings s t) (h' : SameSurroundings t u) :
    SameSurroundings s u where
  err := h'.err.trans h.err
  ovr := h'.ovr.trans h.ovr
  ie := h'.ie.trans h.ie
  program := h'.program.trans h.program
  reads := h'.reads.trans h.reads
  page := h'.page.trans h.page

/-- A listed turn is the one taken (R147). -/
theorem step_listed {s : State} {t : Turn} {rest : List Turn} (h : s.turns = t :: rest) :
    step s = takeTurn t { s with turns := rest } := by
  simp [step, nextTurn, State.dropTurn, h]

/-- The state after the random source answered `v`, with `rest` the turns after the engine's (R116). -/
def answeredWith (v : Dword) (rest : List Turn) (s : State) : State :=
  { s with blk := { s.blk with a := v, rngPending := false, seq := .exec }, turns := rest }

/-- The engine's listed turn on a PRIMETEST in EXEC is `exec` (R133). -/
theorem step_engine_primetest {s : State} {rest : List Turn} (hturns : s.turns = .engine :: rest)
    (hs : s.blk.seq = .exec) (hop : s.blk.op = 0x04) : step s = exec .primetest { s with turns := rest } :=
  (step_listed hturns).trans (engineTurn_exec (s := { s with turns := rest }) hs (by rw [hop]; rfl))

/-- An answer and the engine's step after it, as two steps of a run (R116, R133). -/
theorem run_answer_engine {s t : State} {v : Dword} {rest : List Turn} (k : Nat)
    (hturns : s.turns = .random v :: .engine :: rest) (hpending : s.blk.rngPending = true) (hop : s.blk.op = 0x04)
    (hexec : exec .primetest (answeredWith v rest s) = .next t) :
    Host.Core.run core (k + 2) s = Host.Core.run core k t := by
  have hanswer : step s = .next (answeredWith v (.engine :: rest) s) := by
    rw [step_listed hturns, takeTurn, State.mapBlock, answerWitness_pending v hpending, answeredWith]
  have hengine : step (answeredWith v (.engine :: rest) s) = .next t :=
    (step_engine_primetest (s := answeredWith v (.engine :: rest) s) rfl rfl hop).trans hexec
  rw [run_succ hanswer, run_succ hengine]

section
variable {p v : Dword} {s : State} {r : Nat} {rest : List Turn}

/-- On a prime a round before the 20th, answered in range, leads to the request of the next (R114, R118). -/
theorem AwaitsWitness.round_again (h : AwaitsWitness p r s.blk) (hp : p.toNat.Prime) (h2 : 2 < p.toNat) (hr0 : 0 < r)
    (hr : r < 20) (hv : 1 ≤ v.toNat ∧ v.toNat ≤ p.toNat - 2) :
    ∃ t, exec .primetest (answeredWith v rest s) = .next t ∧ AwaitsWitness p (r + 1) t.blk ∧ t.turns = rest ∧
      SameSurroundings s t := by
  obtain ⟨-, -, hop, rfl, hd, rfl⟩ := h
  obtain ⟨acc, bp, e, t, y, prod, -, hagain, -⟩ := primetestRoundOutcome (answeredWith v rest s) rfl
    (fun hc => absurd (congrArg BitVec.toNat hc) (Nat.ne_of_gt hr0)) (Nat.le_of_lt hr) (oddCandidate_of_prime hp h2) hd
    hv.1 hv.2
  have hnext : (s.blk.r + 1).toNat = s.blk.r.toNat + 1 := BitVec.toNat_add_of_lt (by simpa using by omega)
  exact ⟨_, hagain (strongPass_of_prime hp hv.1 (show v.toNat < s.blk.n.toNat by omega)) hr,
    ⟨rfl, rfl, hop, rfl, hd, hnext⟩, rfl, ⟨rfl, rfl, rfl, rfl, rfl, rfl⟩⟩

/-- On a prime round 20, answered in range, ends the command with R = 1 (R114, R118). -/
theorem AwaitsWitness.round_last (h : AwaitsWitness p 20 s.blk) (hp : p.toNat.Prime) (h2 : 2 < p.toNat)
    (hv : 1 ≤ v.toNat ∧ v.toNat ≤ p.toNat - 2) :
    ∃ t, exec .primetest (answeredWith v rest s) = .next t ∧ EndedPrime v t.blk ∧ t.turns = rest ∧
      SameSurroundings s t := by
  obtain ⟨-, -, -, rfl, hd, hr⟩ := h
  obtain ⟨acc, bp, e, t, y, prod, -, -, hlast⟩ := primetestRoundOutcome (answeredWith v rest s) rfl
    (fun hc => absurd (hr.symm.trans (congrArg BitVec.toNat hc)) (by decide)) hr.le (oddCandidate_of_prime hp h2) hd
    hv.1 hv.2
  exact ⟨_, hlast (strongPass_of_prime hp hv.1 (show v.toNat < s.blk.n.toNat by omega)) hr,
    ⟨join_one, rfl, join_split v, rfl, rfl⟩, rfl, ⟨rfl, rfl, rfl, rfl, rfl, rfl⟩⟩

/-- From the request of any round, answers in range for it and for the rounds after it end the command with R = 1, in
two steps for each answer. -/
theorem AwaitsWitness.run_serve {last : Dword} {vs : List Dword} (h : AwaitsWitness p r s.blk) (hp : p.toNat.Prime)
    (h2 : 2 < p.toNat) (hr0 : 0 < r) (hr : r + vs.length = 20) (hturns : s.turns = serve (vs ++ [last]) ++ rest)
    (hvs : ∀ v ∈ vs ++ [last], 1 ≤ v.toNat ∧ v.toNat ≤ p.toNat - 2) :
    ∃ t, Host.Core.run core (2 * vs.length + 2) s = .next t ∧ EndedPrime last t.blk ∧ t.turns = rest ∧
      SameSurroundings s t := by
  induction vs generalizing s r with
  | nil =>
    obtain rfl : r = 20 := hr
    obtain ⟨t, hexec, hend, ht, hsame⟩ := h.round_last (rest := rest) hp h2 (hvs last (by simp))
    exact ⟨t, run_answer_engine 0 hturns h.pending h.op hexec, hend, ht, hsame⟩
  | cons v vs ih =>
    rw [List.length_cons] at hr ⊢
    obtain ⟨u, hexec, hnext, hu, hsame⟩ :=
      h.round_again (rest := serve (vs ++ [last]) ++ rest) hp h2 hr0 (by omega) (hvs v (by simp))
    obtain ⟨t, hrun, hend, ht, hsame'⟩ :=
      ih hnext (by omega) (by omega) hu fun w hw => hvs w (List.mem_cons_of_mem v hw)
    exact ⟨t, (run_answer_engine (2 * vs.length + 2) hturns h.pending h.op hexec).trans hrun, hend, ht,
      hsame.trans hsame'⟩

/-- The engine's first step on a prime above 2 requests the witness of round 1 (R114). -/
theorem exec_primetest_awaitsWitness (hs : s.blk.seq = .exec) (hop : s.blk.op = 0x04) (hr : s.blk.r = 0)
    (hp : s.blk.sm.toNat.Prime) (h2 : 2 < s.blk.sm.toNat) :
    ∃ t, exec .primetest s = .next t ∧ AwaitsWitness s.blk.sm 1 t.blk ∧ t.turns = s.turns ∧ SameSurroundings s t := by
  obtain ⟨d, hd, hexec⟩ := primetestRequestsFirstWitness s hs hr (reachesRounds_of_prime hp h2)
  exact ⟨_, hexec, ⟨rfl, rfl, hop, rfl, hd, rfl⟩, rfl, ⟨rfl, rfl, rfl, rfl, rfl, rfl⟩⟩

end

/-! ### The tier 2 statement about a whole PRIMETEST -/

/-- Settles O29: the engine's first step requests the witness of round 1, and 20 answers in range follow. -/
theorem primetestAcceptsEveryPrime : Obligations.PrimetestAcceptsEveryPrime := by
  intro s vs last hs hop hr hp h2 hlen hvs
  obtain ⟨u, hexec, hfirst, hu, hsame⟩ := exec_primetest_awaitsWitness
    (s := { s with turns := serve (vs ++ [last]) ++ s.turns }) hs hop hr hp h2
  obtain ⟨t, hrun, hend, ht, hsame'⟩ := hfirst.run_serve hp h2 (by omega) (by omega) hu hvs
  have hstart : step { s with turns := .engine :: serve (vs ++ [last]) ++ s.turns } = .next u :=
    (step_engine_primetest (s := { s with turns := .engine :: serve (vs ++ [last]) ++ s.turns }) rfl hs hop).trans hexec
  obtain ⟨herr, hovr, hie, hprogram, hreads, hpage⟩ := hsame.trans hsame'
  rw [hlen] at hrun
  exact ⟨t, (run_succ hstart).trans hrun, hend.result, hend.rounds, hend.witness, hend.done, hend.seq, herr, hovr, hie,
    ht, hprogram, hreads, hpage⟩

/-! ### The tier 1 statements -/

/-- Settles O12, by the three equations of MRROUND's issue. -/
theorem mrroundIssueChecks : Obligations.MrroundIssueChecks := by
  intro s hs
  rw [exec_atIssue .mrround hs, issuePart]
  refine ⟨fun hbad => ?_, fun hodd h3 hbad => ?_, fun hodd h3 hlo hhi => ?_⟩
  · rw [issueMrround_candidate (b := beginCommand (opcode .mrround) s.blk) hbad]
    rfl
  · rw [issueMrround_witness (b := beginCommand (opcode .mrround) s.blk) ⟨hodd, h3⟩ hbad]
    rfl
  · rw [issueMrround_good (b := beginCommand (opcode .mrround) s.blk) ⟨hodd, h3⟩ hlo hhi]
    rfl

/-- Settles O13: the issue part is the common first part and the start of EXEC. -/
theorem primetestIssueChecksNothing : Obligations.PrimetestIssueChecksNothing :=
  fun _ hs => exec_atIssue .primetest hs

/-- Settles O20: the range check of the answer comes first. -/
theorem primetestRejectsOutOfRangeAnswer : Obligations.PrimetestRejectsOutOfRangeAnswer := by
  intro s hs hr _ hout
  rw [exec_inExec .primetest hs, computePart_outside hr ((witnessOutside_eq _ _).2 hout), raiseError_eq]
  rfl

/-- Settles O30: 7 is a strong pass for 25, as `7^(3·2) mod 25 = 24`, so MRROUND writes R = 1. -/
theorem compositeCanPassARound : Obligations.CompositeCanPassARound := by
  have hstrong : StrongPass 25 7 := ⟨3, 3, by decide, by decide, .inr ⟨1, by decide, by decide⟩⟩
  obtain ⟨x, acc, bp, e, d, t, y, prod, hx, -, hexec⟩ := mrroundDecidesStrongPass
    { State.reset with blk := { Block.reset with seq := .exec, sm := 25, sa := 7 } } rfl ⟨by decide, by decide⟩
    (by decide) (by decide)
  obtain ⟨rfl, -⟩ | ⟨-, hnot⟩ := hx
  · exact ⟨_, _, rfl, rfl, rfl, by decide, hexec, join_one, rfl⟩
  · exact absurd hstrong hnot

end Sys2Proof.Machine

/-! Proofs of the statements of 42_control.md: rules about CMD writes, issues and terminations, then the statements. -/

namespace Sys2Proof.Machine

/-! ### Rules: commands and their opcodes (R70, R71) -/

theorem decodeOpcode_opcode (i : Instr) : decodeOpcode (opcode i) = some i := by cases i <;> rfl

theorem opcode_inj {i j : Instr} (h : opcode i = opcode j) : i = j :=
  Option.some.inj (by rw [← decodeOpcode_opcode i, h, decodeOpcode_opcode j])

theorem Decoded.eq_command_of_toOption {d : Decoded} {i : Instr} (h : d.toOption = some i) : d = .command i := by
  cases d with
  | command j => exact congrArg _ (Option.some.inj h)
  | reject => exact nomatch h

theorem decode_bytesOfWord (v : Word) : decode (bytesOfWord v) = decodeWord v := by
  rw [decode, wordOfBytes_bytes]

/-- A row of the opcode table that has a command is a word the decoder selects that command at. -/
theorem decodeWord_of_decodeTableWord {w : Nat} {i : Instr} (h : decodeTableWord 32 w = some i) :
    decodeWord (BitVec.ofNat 32 (w % 2 ^ 32)) = .command i := by
  rw [decodeTableWord, if_pos (Nat.mod_lt w (by decide)), decode_bytesOfWord] at h
  exact Decoded.eq_command_of_toOption h

/-! ### Rules: CMD writes (R130, R131) -/

/-- On an idle engine the write of a command's word is that command's `exec` (R130). -/
theorem step_writes_command {s : State} {v : Word} {i : Instr} (hidle : s.blk.seq = .idle)
    (hd : decodeWord v = .command i) : step (s.hostWrites 0x0C v) = exec i s := by
  rw [step_writes_cmd, commandWrite_idle hidle hd]

/-- On a busy engine the write of any word sets OVR (R131). -/
theorem step_writes_cmd_busy {s : State} (v : Word) (hbusy : s.blk.seq ≠ .idle) :
    step (s.hostWrites 0x0C v) = .next { s with blk := { s.blk with ovr := true } } := by
  rw [step_writes_cmd, commandWrite_busy v hbusy, State.mapBlock, overrun]

/-- Making an idle engine idle changes nothing. -/
theorem engineIdle_of_idle {s : State} (hidle : s.blk.seq = .idle) (hp : s.blk.rngPending = false) :
    s.engineIdle = s := by
  simp only [State.engineIdle, State.mapBlock, ← hidle, ← hp]

/-! ### Rules: MODPOW and MODMUL (R92, R93) -/

theorem issueModulus_zero {b : Block} (h : b.sm = 0) : issueModulus b = raiseError .invalidModulus b := if_pos h

theorem issueModulus_good {b : Block} (h : b.sm ≠ 0) : issueModulus b = startExec b := if_neg h

/-- MODPOW and MODMUL at issue differ in their opcode alone. -/
theorem exec_modulus_atIssue {i : Instr} {s : State} (hi : i = .modpow ∨ i = .modmul) (hidle : s.blk.seq = .idle) :
    exec i s = .next { s with blk := issueModulus (beginCommand (opcode i) s.blk) } := by
  obtain rfl | rfl := hi
  · exact exec_atIssue .modpow hidle
  · exact exec_atIssue .modmul hidle

/-- MODPOW and MODMUL in EXEC: a `finish` with the residue as R, after writes of working registers. -/
theorem exec_modulus_inExec {i : Instr} {s : State} (hi : i = .modpow ∨ i = .modmul) (hs : s.blk.seq = .exec)
    (hm : s.blk.sm ≠ 0) :
    ∃ (x acc bp e : Dword) (prod : BitVec 128),
      (i = .modpow → x.toNat = s.blk.sa.toNat ^ s.blk.sb.toNat % s.blk.sm.toNat) ∧
      (i = .modmul → x.toNat = s.blk.sa.toNat * s.blk.sb.toNat % s.blk.sm.toNat) ∧
      exec i s = .next { s with
        blk := finish { r := some x } { s.blk with acc := acc, bp := bp, e := e, prod := prod } } := by
  obtain rfl | rfl := hi
  · obtain ⟨x, bp, prod, hx, hexec⟩ := modpowComputesPowerModulo s hs hm
    exact ⟨x, x, bp, 0, prod, fun _ => hx, nofun, hexec⟩
  · obtain ⟨x, hx, hexec⟩ := modmulComputesProductModulo s hs hm
    exact ⟨x, s.blk.acc, s.blk.bp, s.blk.e, _, nofun, fun _ => hx, hexec⟩

/-! ### Rules: the checked operands of a running command (R92, R93, R113, R114, R130) -/

/-- An issue that goes to EXEC establishes the invariant when its command's checks passed. -/
theorem commandInv_startExec {i : Instr} {b : Block} (hop : b.op = opcode i) (hnop : i ≠ .nop)
    (hmodulus : i = .modpow ∨ i = .modmul → b.sm ≠ 0)
    (hround : i = .mrround → OddCandidate b.sm.toNat ∧ 1 ≤ b.sa.toNat ∧ b.sa.toNat ≤ b.sm.toNat - 2)
    (htest : i = .primetest → b.r = 0) : CommandInv (startExec b) where
  legal _ := by
    rw [startExec, hop]
    cases i with
    | nop => contradiction
    | modpow | modmul | mrround | primetest => decide
  modulus _ h := hmodulus (h.imp (fun h1 => opcode_inj (hop.symm.trans h1)) fun h2 => opcode_inj (hop.symm.trans h2))
  round _ h := hround (opcode_inj (hop.symm.trans h))
  test _ h hr := absurd (htest (opcode_inj (hop.symm.trans h))) hr
  request h := nomatch h

theorem IssueOutcome.commandInv {i : Instr} {b c : Block} (ho : IssueOutcome i b c) (hop : b.op = opcode i) :
    CommandInv c := by
  cases ho with
  | nop | modulusZero | candidateBad | witnessBad => exact commandInv_of_idle rfl
  | modulusGood hi hm =>
    obtain rfl | rfl := hi <;> exact commandInv_startExec hop nofun (fun _ => hm) nofun nofun
  | roundGood hi hn hlo hhi =>
    subst hi
    exact commandInv_startExec hop nofun nofun (fun _ => ⟨hn, hlo, hhi⟩) nofun
  | primetest hi =>
    subst hi
    exact commandInv_startExec (b := { b with r := 0 }) hop nofun nofun nofun fun _ => rfl

/-- A PRIMETEST that requests a witness for its candidate meets the invariant while it waits. -/
theorem commandInv_requestWitness {b : Block} (hop : b.op = 0x04) (hr : b.r ≠ 0) (hn : b.n = b.sm)
    (hodd : OddCandidate b.n.toNat) (hd : OddPart b.n.toNat b.d.toNat) :
    CommandInv (requestWitness 1 (b.n - 2) b) where
  legal _ := .inr (.inr (.inr hop))
  modulus _ h := h.elim (fun h1 => nomatch hop.symm.trans h1) fun h2 => nomatch hop.symm.trans h2
  round _ h := nomatch hop.symm.trans h
  test _ _ _ := ⟨hn, hodd, hd⟩
  request _ := by
    obtain ⟨-, h3⟩ := hodd
    have hsub : (b.n - 2).toNat = b.n.toNat - 2 :=
      BitVec.toNat_sub_of_le (BitVec.le_def.2 (Nat.le_of_succ_le h3))
    exact ⟨hr, rfl, hsub.trans (by rw [hn]; rfl)⟩

theorem ComputeOutcome.commandInv {i : Instr} {b c : Block} (ho : ComputeOutcome i b c) (h : CommandInv b)
    (hs : b.seq = .exec) (hop : b.op = opcode i) : CommandInv c := by
  cases ho with
  | nop => exact h
  | modpow | modmul | mrround | fast | outside | composite | last => exact commandInv_of_idle rfl
  | first hi _ hreach =>
    subst hi
    exact commandInv_requestWitness (b := { b with n := b.sm, d := decomposeOdd b.sm, r := 1 }) hop
      (by decide : (1 : BitVec 5) ≠ 0) rfl hreach.oddCandidate (decomposeOdd_oddPart hreach.oddCandidate)
  | again hi hr hlt =>
    subst hi
    obtain ⟨hn, hodd, hd⟩ := h.test (by simp [hs]) hop hr
    have hnext : b.r + 1 ≠ 0 := by bv_omega
    exact commandInv_requestWitness (b := { runRound b with r := b.r + 1 }) hop hnext hn hodd hd

theorem WriteOutcome.commandInv {r : Reg} {v : Word} {b c : Block} (ho : WriteOutcome r v b c) (h : CommandInv b) :
    CommandInv c := by
  cases ho with
  | reset | abort => exact commandInv_of_idle rfl
  | enable | status | operands => exact { h with }

/-- The answer resumes the waiting PRIMETEST, its candidate and odd part kept (R116). -/
theorem commandInv_answered {b : Block} (h : CommandInv b) (v : Dword) (hs : b.seq = .rngwait) :
    CommandInv { b with a := v, rngPending := false, seq := .exec } :=
  have hbusy : b.seq ≠ .idle := by simp [hs]
  { legal := fun _ => h.legal hbusy
    modulus := fun _ => h.modulus hbusy
    round := fun _ => h.round hbusy
    test := fun _ => h.test hbusy
    request := fun hw => nomatch hw }

/-! ### Rules: how the engine's turn ends (R132, R133, R145) -/

/-- The engine's step on a command other than NOP sets DONE or ERR and goes to IDLE, or, for a PRIMETEST, waits. -/
theorem ComputeOutcome.terminates_or_waits {i : Instr} {b c : Block} (ho : ComputeOutcome i b c) (hnop : i ≠ .nop) :
    (c.seq = .idle ∧ (c.done = true ∨ c.err = true)) ∨ (c.seq = .rngwait ∧ i = .primetest) := by
  cases ho with
  | nop hi => contradiction
  | modpow | modmul | mrround | fast | composite | last => exact .inl ⟨rfl, .inl rfl⟩
  | outside => exact .inl ⟨rfl, .inr rfl⟩
  | first hi | again hi => exact .inr ⟨rfl, hi⟩

/-- The engine's step keeps the snapshot of M (R36). -/
theorem ComputeOutcome.sm {i : Instr} {b c : Block} (ho : ComputeOutcome i b c) : c.sm = b.sm := by
  cases ho with
  | mrround x b1 _ hb1 => subst hb1; rfl
  | nop | modpow | modmul | fast | first | outside | composite | again | last => rfl

/-- R46 excludes that DONE and ERR are both set, so with one of them set exactly one is. -/
theorem StatusInv.done_iff_not_err {b : Block} (h : StatusInv b) (hone : b.done = true ∨ b.err = true) :
    b.done = true ↔ b.err = false := by
  obtain hdone | herr := hone
  · exact iff_of_true hdone (Bool.eq_false_iff.2 fun herr => h.not_both ⟨hdone, herr⟩)
  · exact iff_of_false (fun hdone => h.not_both ⟨hdone, herr⟩) (by simp [herr])

/-- A busy engine's opcode is that of a command other than NOP. -/
theorem CommandInv.exists_command {b : Block} (h : CommandInv b) (hs : b.seq ≠ .idle) :
    ∃ i, b.op = opcode i ∧ i ≠ .nop := by
  obtain hop | hop | hop | hop := h.legal hs
  · exact ⟨.modpow, hop, nofun⟩
  · exact ⟨.modmul, hop, nofun⟩
  · exact ⟨.mrround, hop, nofun⟩
  · exact ⟨.primetest, hop, nofun⟩

/-! ### The tier 3 statement -/

/-- Settles O48: a step leaves the engine idle, leaves a running command and what it holds alone, starts a command whose
checks passed, or moves a PRIMETEST into or out of its wait. -/
theorem stepKeepsCommandInvariant : Obligations.StepKeepsCommandInvariant := by
  intro s t hstatus h hstep
  have hc := (step_cases hstep).1
  generalize t.blk = c at hc ⊢
  cases hc with
  | unchanged => exact h
  | illegal | reset => exact commandInv_of_idle rfl
  | overrun => exact { h with }
  | issue i => exact (issuePart_cases i _).commandInv rfl
  | write r v => exact (writeReg_outcome r v _).commandInv h
  | engine i _ hs hop => exact (computePart_cases i _).commandInv h hs hop
  | answer v _ hp => exact commandInv_answered h v (hstatus.pending.1 hp)

/-! ### The tier 2 statements -/

/-- Settles O31: the issue takes the operands as the snapshot and goes to EXEC, where the engine finishes with the
residue. -/
theorem issueThenEngineGivesTheResidue : Obligations.IssueThenEngineGivesTheResidue := by
  intro s i hi hidle hm
  have hissue := step_writes_command hidle ((decodeWord_iff _ i).2 rfl)
  rw [exec_modulus_atIssue hi hidle, issueModulus_good (b := beginCommand (opcode i) s.blk) hm] at hissue
  obtain ⟨x, acc, bp, e, prod, hpow, hmul, hexec⟩ :=
    exec_modulus_inExec (s := { s with blk := startExec (beginCommand (opcode i) s.blk) }) hi rfl hm
  have hx : join (highWord x) (lowWord x) = x := join_split x
  exact ⟨_, _, hissue, rfl, (engineTurn_exec rfl (decodeOpcode_opcode i)).trans hexec,
    fun h => (congrArg BitVec.toNat hx).trans (hpow h), fun h => (congrArg BitVec.toNat hx).trans (hmul h),
    rfl, rfl, rfl, rfl, rfl, rfl, rfl, rfl, rfl, rfl, rfl, rfl, rfl, rfl, rfl⟩

/-- Settles O43: each register's write by one rule, and the rule of the reserved offsets. -/
theorem otherWrites : Obligations.OtherWrites := by
  intro s v
  exact ⟨step_writes_reg s v (r := .aLo) nofun, step_writes_reg s v (r := .aHi) nofun,
    step_writes_reg s v (r := .bLo) nofun, step_writes_reg s v (r := .bHi) nofun,
    step_writes_reg s v (r := .mLo) nofun, step_writes_reg s v (r := .mHi) nofun,
    step_writes_reg s v (r := .id) nofun, step_writes_reg s v (r := .rLo) nofun,
    step_writes_reg s v (r := .rHi) nofun, step_writes_reg s v (r := .rounds) nofun,
    step_writes_reg s v (r := .witLo) nofun, step_writes_reg s v (r := .witHi) nofun,
    fun _ hlow hhigh h4 => step_writes_reserved s v hlow hhigh h4⟩

/-- Settles O55: the step ends in IDLE with DONE or ERR, which R46 excludes together, or in RNGWAIT, where both
invariants say what is requested. -/
theorem engineTurnTerminatesOrRequests : Obligations.EngineTurnTerminatesOrRequests := by
  intro s hstatus hcommand hs
  obtain ⟨i, hop, hnop⟩ := hcommand.exists_command (by simp [hs])
  have ho := computePart_cases i s.blk
  have hstatus' := ho.statusInv hstatus hs hop
  have hcommand' := ho.commandInv hcommand hs hop
  have hdecode : decodeOpcode s.blk.op = some i := by rw [hop, decodeOpcode_opcode]
  refine ⟨{ s with blk := computePart i s.blk }, (engineTurn_exec hs hdecode).trans (exec_inExec i hs), ?_⟩
  obtain ⟨hidle, hone⟩ | ⟨hwait, rfl⟩ := ho.terminates_or_waits hnop
  · exact .inl ⟨hidle, hstatus'.done_iff_not_err hone⟩
  · obtain ⟨-, hlo, hhi⟩ := hcommand'.request hwait
    exact .inr ⟨hwait, hop, hstatus'.pending.2 hwait, hlo, hhi.trans (by rw [ho.sm])⟩

/-! ### The tier 1 statements -/

/-- Settles O4: the word of a table row decodes to its command, and `withFetchWord` writes it on an idle engine. -/
theorem stepIssuesTheDecodedCommand : Obligations.StepIssuesTheDecodedCommand :=
  ⟨fun _ _ _ hidle hd => step_writes_command hidle hd, fun s _ _ h =>
    ⟨step_writes_command (s := s.engineIdle) rfl (decodeWord_of_decodeTableWord h), engineIdle_of_idle⟩⟩

/-- Settles O8, by the equation of `finish` at each of the three lists of assignments. -/
theorem finishWritesListedResults : Obligations.FinishWritesListedResults :=
  fun r _ _ b => ⟨finish_eq {} b, finish_result r b, finish_eq _ b, rfl⟩

/-- Settles O9: a busy engine does not decode the word. -/
theorem commandWhileBusyOnlySetsOverrun : Obligations.CommandWhileBusyOnlySetsOverrun :=
  fun _ v hbusy => step_writes_cmd_busy v hbusy

/-- Settles O10: the issue part of NOP is the termination, so DONE alone gives `irq` its level. -/
theorem nopFinishesAtIssue : Obligations.NopFinishesAtIssue := by
  intro s
  refine ⟨fun hidle => ?_, fun hbusy => step_writes_cmd_busy _ hbusy⟩
  have hexec := exec_atIssue .nop hidle
  exact ⟨_, hexec, (step_writes_command hidle ((decodeWord_iff _ .nop).2 rfl)).trans hexec, rfl,
    Bool.and_true s.blk.ie⟩

/-- Settles O11, by the two equations of the check of M. -/
theorem modulusCommandsIssue : Obligations.ModulusCommandsIssue := by
  intro s i hi hidle
  rw [exec_modulus_atIssue hi.symm hidle]
  by_cases h : s.blk.mHi ++ s.blk.mLo = 0#64
  · rw [issueModulus_zero (b := beginCommand (opcode i) s.blk) h]
    simp only [if_pos h, decide_eq_true h]
    rfl
  · rw [issueModulus_good (b := beginCommand (opcode i) s.blk) h]
    simp only [if_neg h, decide_eq_false h]
    rfl

/-- Settles O39, by the three equations of a CTRL write. -/
theorem ctrlWriteEffect : Obligations.CtrlWriteEffect := by
  intro s v
  have hwrite : step (s.hostWrites 0x04 v) = .next { s with blk := writeCtrl v s.blk } :=
    step_writes_reg s v (r := .ctrl) nofun
  rw [hwrite]
  refine ⟨fun h2 => ?_, fun h2 h1 hbusy => ?_, fun h2 hnot => ?_⟩
  · rw [writeCtrl_srst h2]
  · rw [writeCtrl_abort h2 ⟨h1, hbusy⟩, raiseError_eq, ErrorCode.code]
  · rw [writeCtrl_enable h2 fun ⟨h1, hbusy⟩ => hnot.elim (fun h0 => nomatch h0.symm.trans h1) hbusy]

/-- Settles O40: both steps put the reset block in place of the block. -/
theorem softResetIsTheResetInput : Obligations.SoftResetIsTheResetInput := by
  intro s v h2
  exact ⟨(ctrlWriteEffect s v).1 h2, rfl⟩

/-- Settles O42: a flag is kept where its bit is not written as 1. -/
theorem statusWriteClearsNamedFlags : Obligations.StatusWriteClearsNamedFlags := by
  intro s v
  have hclear : ∀ flag bit : Bool, (flag && !bit) = if bit then false else flag := by decide
  have hwrite : step (s.hostWrites 0x08 v) = .next { s with blk := writeStatus v s.blk } :=
    step_writes_reg s v (r := .status) nofun
  rw [hwrite, writeStatus, hclear, hclear, hclear]

end Sys2Proof.Machine

/-! Proofs of the statements of 60_exceptions.md: rules about the codes an issue and a computation end with, about `irq`
and about what an error leaves alone, then the statements. -/

namespace Sys2Proof.Machine

/-! ### Rules: CMD writes on an idle engine (R72, R130) -/

theorem encodeWord_eq_iff {i j : Instr} : encodeWord i = encodeWord j ↔ i = j :=
  ⟨fun h => Decoded.command.inj (((decodeWord_iff _ i).2 rfl).symm.trans ((decodeWord_iff _ j).2 h)),
    congrArg encodeWord⟩

/-- A command's word has no illegal field (R72). -/
theorem encodeWord_fields (i : Instr) :
    ¬((encodeWord i).extractLsb' 8 24 ≠ 0 ∨ 5 ≤ ((encodeWord i).extractLsb' 0 8).toNat) := by
  intro h
  obtain ⟨why, hreject⟩ := (decodeWord_reject _).2 h
  exact nomatch ((decodeWord_iff _ i).2 rfl).symm.trans hreject

/-- The host's write to CMD on an idle engine: a command's issue, or the error termination of an illegal word. -/
theorem step_writes_cmd_idle {s : State} (v : Word) (hidle : s.blk.seq = .idle) :
    (∃ i, v = encodeWord i ∧
      step (s.hostWrites 0x0C v) = .next { s with blk := issuePart i (beginCommand (opcode i) s.blk) }) ∨
    ((v.extractLsb' 8 24 ≠ 0 ∨ 5 ≤ (v.extractLsb' 0 8).toNat) ∧
      step (s.hostWrites 0x0C v) = .next { s with blk := illegalCommand s.blk }) := by
  cases hd : decodeWord v with
  | command i =>
    exact .inl ⟨i, (decodeWord_iff v i).1 hd, (step_writes_command hidle hd).trans (exec_atIssue i hidle)⟩
  | reject why => exact .inr ⟨(decodeWord_reject v).1 ⟨why, hd⟩, step_writes_cmd_rejected hidle hd⟩

/-! ### Rules: the codes of an issue and of a computation (R142, R144) -/

theorem raiseError_errcode_ne_zero (k : ErrorCode) (b : Block) : (raiseError k b).errcode ≠ 0 := k.code_ne_zero

section
variable {i : Instr} {b c : Block}

/-- The code an issue ends with is that of the first check that applies, and 0 if none does (R144). -/
theorem IssueOutcome.errcode (ho : IssueOutcome i b c) (hb : b.errcode = 0) :
    c.errcode =
      if (i = .modpow ∨ i = .modmul) ∧ b.sm.toNat = 0 then 1
      else if i = .mrround ∧ (b.sm.toNat % 2 = 0 ∨ b.sm.toNat < 3) then 3
      else if i = .mrround ∧ (b.sa.toNat < 1 ∨ b.sm.toNat - 2 < b.sa.toNat) then 4
      else 0 := by
  cases ho with
  | nop hi | primetest hi =>
    subst hi
    exact hb
  | modulusZero hi hm => exact (if_pos ⟨hi, congrArg BitVec.toNat hm⟩).symm
  | modulusGood hi hm =>
    rw [if_neg fun h => (toNat_pos_of_ne_zero hm).ne' h.2]
    obtain rfl | rfl := hi <;> exact hb
  | candidateBad hi hn =>
    have hn' : b.sm.toNat % 2 = 0 ∨ b.sm.toNat < 3 := by unfold OddCandidate at hn; omega
    subst hi
    rw [if_neg (by simp), if_pos ⟨rfl, hn'⟩, raiseError_eq, ErrorCode.code]
  | witnessBad hi hn hw =>
    obtain ⟨hodd, h3⟩ := hn
    subst hi
    rw [if_neg (by simp), if_neg (by omega), if_pos ⟨rfl, hw⟩, raiseError_eq, ErrorCode.code]
  | roundGood hi hn hlo hhi =>
    obtain ⟨hodd, h3⟩ := hn
    subst hi
    rw [if_neg (by simp), if_neg (by omega), if_neg (by omega)]
    exact hb

/-- An issue ends with ERR set exactly when it ends with a code (R26, R29). -/
theorem IssueOutcome.err_iff (ho : IssueOutcome i b c) (hb : b.err = false) (hb' : b.errcode = 0) :
    c.err = false ↔ c.errcode = 0 := by
  cases ho with
  | nop | modulusGood | roundGood | primetest => exact iff_of_true hb hb'
  | modulusZero | candidateBad | witnessBad => exact iff_of_false (nomatch ·) (raiseError_errcode_ne_zero _ b)

/-- The rows of the table of R142: the codes command `i` may leave of its own. -/
def CodeInRow (i : Instr) (code : BitVec 4) : Prop :=
  (i = .modpow ∧ code = 1) ∨ (i = .modmul ∧ code = 1) ∨ (i = .mrround ∧ (code = 3 ∨ code = 4)) ∨
  (i = .primetest ∧ code = 6)

/-- The checks of an issue raise InvalidModulus, InvalidCandidate and WitnessOutOfRange (R92, R93, R113). -/
theorem IssueOutcome.codeInRow (ho : IssueOutcome i b c) (hb : b.err = false) (herr : c.err = true) :
    CodeInRow i c.errcode := by
  cases ho with
  | nop | modulusGood | roundGood | primetest => exact nomatch hb.symm.trans herr
  | modulusZero hi =>
    obtain hi | hi := hi
    · exact .inl ⟨hi, rfl⟩
    · exact .inr (.inl ⟨hi, rfl⟩)
  | candidateBad hi => exact .inr (.inr (.inl ⟨hi, .inl rfl⟩))
  | witnessBad hi => exact .inr (.inr (.inl ⟨hi, .inr rfl⟩))

/-- In EXEC only the range check of PRIMETEST's witness raises an error (R114). -/
theorem ComputeOutcome.codeInRow (ho : ComputeOutcome i b c) (hb : b.err = false) (herr : c.err = true) :
    CodeInRow i c.errcode := by
  cases ho with
  | outside hi => exact .inr (.inr (.inr ⟨hi, rfl⟩))
  | mrround x b1 _ hb1 => subst hb1; exact nomatch hb.symm.trans herr
  | nop | modpow | modmul | fast | first | composite | again | last => exact nomatch hb.symm.trans herr

end

/-! ### Rules: `irq` (R41, R149) -/

section
variable {b c : Block}

theorem irq_of_ie (h : b.ie = false) : b.irq = false := by simp [Block.irq, h]

theorem irq_of_flags (hd : b.done = false) (he : b.err = false) : b.irq = false := by simp [Block.irq, hd, he]

/-- Clearing DONE where it is set, and clearing ERR where it is set, leaves no flag: R46 excludes the other one. -/
theorem StatusInv.irq_writeStatus {v : Word} (h : StatusInv b)
    (hv : v.getLsbD 1 = true ∧ b.done = true ∨ v.getLsbD 2 = true ∧ b.err = true) : (writeStatus v b).irq = false := by
  obtain ⟨hv, hdone⟩ | ⟨hv, herr⟩ := hv
  · have herr : b.err = false := Bool.eq_false_iff.2 fun herr => h.not_both ⟨hdone, herr⟩
    exact irq_of_flags (by simp [writeStatus, hv]) (by simp [writeStatus, herr])
  · have hdone : b.done = false := Bool.eq_false_iff.2 fun hdone => h.not_both ⟨hdone, herr⟩
    exact irq_of_flags (by simp [writeStatus, hdone]) (by simp [writeStatus, hv])

/-- A CTRL write with bit 0 clear leaves IE clear, whatever else it does (R135). -/
theorem CtrlOutcome.ie {v : Word} (ho : CtrlOutcome v b c) (h0 : v.getLsbD 0 = false) : c.ie = false := by
  cases ho with
  | reset => rfl
  | abort | enable => exact h0

/-- An issue that goes to EXEC keeps the flags as its first line cleared them (R130). -/
theorem IssueOutcome.flags_of_exec {i : Instr} (ho : IssueOutcome i b c) (hs : c.seq = .exec) :
    c.done = b.done ∧ c.err = b.err := by
  cases ho with
  | nop | modulusZero | candidateBad | witnessBad => exact nomatch hs
  | modulusGood | roundGood | primetest => exact ⟨rfl, rfl⟩

end

/-! ### Rules: what an error leaves alone (R145, R146) -/

/-- Under R46, an engine with ERR set is idle, with DONE clear and no request. -/
theorem StatusInv.idle_of_err {b : Block} (h : StatusInv b) (herr : b.err = true) :
    b.seq = .idle ∧ b.done = false ∧ b.rngPending = false := by
  have hs : b.seq = .idle := by
    by_contra hs
    exact nomatch (h.busy_clear hs).2.symm.trans herr
  exact ⟨hs, Bool.eq_false_iff.2 fun hdone => h.not_both ⟨hdone, herr⟩, h.not_pending (by simp [hs])⟩

/-- The host's next write is to one offset. -/
theorem WritesNext.offset_unique {s : State} {off off' : Nat} {v w : Word} (h : WritesNext s off v)
    (h' : WritesNext s off' w) : off = off' := by
  obtain ⟨-, _, hp⟩ := h
  obtain ⟨-, _, hp'⟩ := h'
  have haddr := hp.symm.trans hp'
  simp only [List.cons.injEq, HostOp.access.injEq, Access.write.injEq] at haddr
  omega

theorem Reg.offset_ne_cmd {r : Reg} (h : r ≠ .cmd) : r.offset ≠ 0x0C := fun hoff =>
  h (Option.some.inj ((regAt_offset r).symm.trans (congrArg regAt hoff)))

/-- A STATUS write that leaves ERR set leaves ERRCODE (R138). -/
theorem writeStatus_errcode_of_err {b : Block} {v : Word} (herr : (writeStatus v b).err = true) :
    (writeStatus v b).errcode = b.errcode :=
  if_neg (by simpa using Bool.and_elim_right herr)

/-- A step that records an error writes none of the host's registers, but for IE where it is a CTRL write (R145). -/
theorem BlockStep.sameHostRegs_of_error {s : State} {c : Block} (hstep : BlockStep s c) (hinv : StatusInv s.blk)
    (herr : c.err = true) (hcause : c.errcode ≠ s.blk.errcode ∨ ∃ v, WritesNext s 0x0C v) :
    ∃ x, SameHostRegs { s.blk with ie := x } c ∧ (x = s.blk.ie ∨ ∃ v, WritesNext s 0x04 v) := by
  cases hstep with
  | unchanged | illegal | answer => exact ⟨_, ⟨rfl, rfl, rfl, rfl, rfl, rfl, rfl, rfl⟩, .inl rfl⟩
  | overrun _ hs => exact nomatch (hinv.busy_clear hs).2.symm.trans herr
  | issue i => exact ⟨_, sameHostRegs_issue i s.blk, .inl rfl⟩
  | engine i => exact ⟨_, sameHostRegs_compute i s.blk, .inl rfl⟩
  | reset => exact nomatch herr
  | write r v hr hw =>
    have hcode : (writeReg v s.blk r).errcode ≠ s.blk.errcode :=
      hcause.resolve_right fun ⟨_, hcmd⟩ => Reg.offset_ne_cmd hr (hw.offset_unique hcmd)
    have ho := writeReg_outcome r v s.blk
    generalize writeReg v s.blk r = c at ho herr hcode ⊢
    cases ho with
    | reset => exact nomatch herr
    | abort hr => subst hr; exact ⟨_, ⟨rfl, rfl, rfl, rfl, rfl, rfl, rfl, rfl⟩, .inr ⟨v, hw⟩⟩
    | enable | operands => exact absurd rfl hcode
    | status => exact absurd (writeStatus_errcode_of_err herr) hcode

/-! ### Rules: the engine's turn before and after an ABORT (R35, R136, R147) -/

/-- An idle engine has no step. -/
theorem step_engine_of_idle {s : State} (hidle : s.blk.seq = .idle) : step (s.withTurn .engine) = .next s :=
  engineTurn_of_ne_exec (s := s) (by simp [hidle])

/-- The engine's turn writes none of the host's registers. -/
theorem sameHostRegs_engineTurn {s t : State} (hs : s.blk.seq = .exec) (h : engineTurn s = .next t) :
    SameHostRegs s.blk t.blk := by
  cases hd : decodeOpcode s.blk.op with
  | some i =>
    cases ((engineTurn_exec hs hd).trans (exec_inExec i hs)).symm.trans h
    exact sameHostRegs_compute i s.blk
  | none => simp [engineTurn, hs, hd] at h

/-! ### The tier 2 statements -/

/-- Settles O14: an illegal word is rejected before any check, and a command's issue ends with the code of the first
check that applies to its snapshot. -/
theorem issueErrorPriority : Obligations.IssueErrorPriority := by
  intro s v hidle M A
  obtain ⟨i, rfl, hstep⟩ | ⟨hfields, hstep⟩ := step_writes_cmd_idle v hidle
  · have ho := issuePart_cases i (beginCommand (opcode i) s.blk)
    refine ⟨_, hstep, ho.err_iff rfl rfl, ?_⟩
    rw [if_neg (encodeWord_fields i)]
    simp only [show (1 : Word) = encodeWord .modpow from rfl, show (2 : Word) = encodeWord .modmul from rfl,
      show (3 : Word) = encodeWord .mrround from rfl, encodeWord_eq_iff]
    exact ho.errcode rfl
  · exact ⟨_, hstep, iff_of_false nofun (raiseError_errcode_ne_zero .illegalCommand _), (if_pos hfields).symm⟩

/-- Settles O45: each of the writes and the reset leaves IE clear or both flags clear. -/
theorem irqFallsWhenCleared : Obligations.IrqFallsWhenCleared := by
  intro s t v hinv
  have hstatus : step (s.hostWrites 0x08 v) = .next { s with blk := writeStatus v s.blk } :=
    step_writes_reg s v (r := .status) nofun
  have hctrl : step (s.hostWrites 0x04 v) = .next { s with blk := writeCtrl v s.blk } :=
    step_writes_reg s v (r := .ctrl) nofun
  rw [hstatus, hctrl]
  refine ⟨?_, ?_, ?_, fun hidle hstep hexec => ?_, ?_⟩
  · rintro hv hdone ⟨⟩
    exact hinv.irq_writeStatus (.inl ⟨hv, hdone⟩)
  · rintro hv herr ⟨⟩
    exact hinv.irq_writeStatus (.inr ⟨hv, herr⟩)
  · rintro h0 ⟨⟩
    exact irq_of_ie ((writeCtrl_cases v s.blk).ie h0)
  · obtain ⟨i, -, h⟩ | ⟨-, h⟩ := step_writes_cmd_idle v hidle <;> cases h.symm.trans hstep
    · obtain ⟨hdone, herr⟩ := (issuePart_cases i (beginCommand (opcode i) s.blk)).flags_of_exec hexec
      exact irq_of_flags hdone herr
    · exact nomatch hexec
  · rintro ⟨⟩
    rfl

/-- Settles O54: the abort leaves an engine that has no step, and a terminated command leaves an engine that an ABORT
does not touch. -/
theorem abortAndTerminationAreOrdered : Obligations.AbortAndTerminationAreOrdered := by
  intro s v hs h0 h1 h2
  refine ⟨⟨_, (ctrlWriteEffect s v).2.1 h2 h1 (by simp [hs]), step_engine_of_idle rfl, by rw [h0]⟩, ?_⟩
  intro t hstep hidle
  have hie : v.getLsbD 0 = t.blk.ie := h0.trans (sameHostRegs_engineTurn hs hstep).ie.symm
  rw [(ctrlWriteEffect t v).2.2 h2 (.inr hidle), hie]

/-- Settles O56: R46 after the step gives the engine's state, and what writes results or the host's registers is no
error. -/
theorem errorsArePrecise : Obligations.ErrorsArePrecise := by
  intro s t hinv hstep herr hcause
  obtain ⟨hidle, hdone, hpending⟩ := (stepKeepsStatusInvariant s t hinv hstep).idle_of_err herr
  obtain ⟨x, hregs, hie⟩ := (step_cases hstep).1.sameHostRegs_of_error hinv herr hcause
  obtain ⟨hresult, hrounds, hwitness⟩ : SameResults s.blk t.blk := by
    obtain h | ⟨-, -, -, h⟩ | ⟨-, h⟩ := resultsChangeOnlyAtTermination s t hstep
    · exact h
    · exact nomatch hdone.symm.trans h
    · exact nomatch (congrArg Block.err h).symm.trans herr
  exact ⟨congrArg₂ join hregs.aHi hregs.aLo, congrArg₂ join hregs.bHi hregs.bLo, congrArg₂ join hregs.mHi hregs.mLo,
    hresult, hrounds, hwitness, hregs.ovr, hdone, hie.imp_left hregs.ie.trans, hidle, hpending⟩

/-- Settles O57: at issue by the checks of the issue, whose first line clears ERR; in EXEC by the range check alone. -/
theorem commandsRaiseOnlyTheirErrors : Obligations.CommandsRaiseOnlyTheirErrors := by
  intro i s t hs hexec herr
  obtain hidle | ⟨hs, hclear⟩ := hs
  · cases (exec_atIssue i hidle).symm.trans hexec
    exact (issuePart_cases i _).codeInRow rfl herr
  · cases (exec_inExec i hs).symm.trans hexec
    exact (computePart_cases i _).codeInRow hclear herr

/-! ### The tier 1 statements -/

/-- Settles O7, by the equation of `raiseError`; BUSY and RNGWAIT are views of `seq`. -/
theorem raiseErrorWritesOnlyStatusAndSequencer : Obligations.RaiseErrorWritesOnlyStatusAndSequencer :=
  fun c b => ⟨raiseError_eq c b, rfl, rfl⟩

/-- Settles O58, by the equation of the turn of another bus master. -/
theorem secondBusMasterIsRefused : Obligations.SecondBusMasterIsRefused :=
  fun s => step_withTurn s .otherMaster

end Sys2Proof.Machine

/-! Proof of the statement of 70_reset_and_hazards.md: whose turn it is where none is listed. -/

namespace Sys2Proof.Machine

/-! ### The tier 1 statement -/

/-- Settles O6, by the step with no turn listed; on either side of its test, that turn is the step with it listed first. -/
theorem unlistedTurnIsEngineElseHost : Obligations.UnlistedTurnIsEngineElseHost := by
  intro s hnone
  rw [step_unlisted hnone]
  constructor
  · intro hexec
    rw [if_pos hexec, step_withTurn]
  · intro hnot
    rw [if_neg hnot, step_withTurn]

end Sys2Proof.Machine
